-- ==== Sys2Proof/Word.lean ====
section
/-! DEFINITION. The value types of rule R9: bytes, 32-bit words, byte sequences, and the
fixed-length sequences of the hardware (rule R5: 8-byte blocks, 32-byte keys, 8 subkeys). -/

namespace Sys2Proof

/-- A byte, 0..255 (rule R9). -/
abbrev Byte := BitVec 8

/-- An unsigned 32-bit word; `+` on it is the spec's `+32` (rules R9, R10). -/
abbrev Word := BitVec 32

/-- A finite byte sequence, indexed from 0 (rule R9). -/
abbrev Bytes := List Byte

/-- A block or an IV: exactly 8 bytes (rule R5). -/
abbrev Block := Vector Byte 8

/-- A key, and also a digest or an HMAC pad: exactly 32 bytes (rule R5). -/
abbrev Key := Vector Byte 32

/-- The subkeys `K[0..7]`: eight 32-bit words (rules R5, R21). -/
abbrev Subkeys := Vector Word 8

/-- `zeros(n)` of rule R9 as a fixed-length sequence. -/
abbrev zeros (n : Nat) : Vector Byte n := Vector.replicate n 0#8

/-- The words of an all-zero key register file. -/
abbrev zeroWords : Subkeys := Vector.replicate 8 0#32

end Sys2Proof
end

