-- ==== Sys2Proof/Syntax.lean ====
section
/-! DEFINITION. The 15 commands of the opcode table (rule R93), one constructor per row. A command's
operands are the fields of its word that are free: `LEN` always, `DIR` or `METHOD` where `ARG`
carries one (rules R90, R91). -/

namespace Sys2Proof

/-- The direction of a CFB stream (rule R98): `ARG` 0 encrypts, `ARG` 1 decrypts. -/
inductive Dir where
  | enc
  | dec
deriving DecidableEq, Repr

/-- A command. `len` is the field `LEN`, a byte count as encoded (0..255); a `len` outside the
legal set of rule R93 is a well-formed command that fails with InvalidSize (rules R94, R96).
`method` is the field `METHOD`, any byte (rule R94). -/
inductive Instr where
  /-- CTX_INIT, rule R134. -/
  | ctxInit (len : Byte)
  /-- CTX_WIPE, rule R135. -/
  | ctxWipe (len : Byte)
  /-- BLK_ENC, rule R136. -/
  | blkEnc (len : Byte)
  /-- BLK_DEC, rule R137. -/
  | blkDec (len : Byte)
  /-- CFB_START, rule R166. -/
  | cfbStart (dir : Dir) (len : Byte)
  /-- CFB_DATA, rule R167. -/
  | cfbData (len : Byte)
  /-- CFB_END, rule R168. -/
  | cfbEnd (len : Byte)
  /-- KW_ENCODE, rule R190. -/
  | kwEncode (method len : Byte)
  /-- KW_DECODE, rule R191. -/
  | kwDecode (method len : Byte)
  /-- HMAC_INIT, rule R214. -/
  | hmacInit (len : Byte)
  /-- HMAC_UPDATE, rule R215. -/
  | hmacUpdate (len : Byte)
  /-- HMAC_FINAL, rule R216. -/
  | hmacFinal (len : Byte)
  /-- HMAC_WIPE, rule R217. -/
  | hmacWipe (len : Byte)
  /-- IO_WIPE, rule R240. -/
  | ioWipe (len : Byte)
  /-- SOFT_RESET, rule R241. -/
  | softReset (len : Byte)
deriving DecidableEq, Repr

/-- The mnemonic of a command, as the opcode table spells it (rule R93). -/
def Instr.mnemonic : Instr → String
  | .ctxInit _ => "CTX_INIT"
  | .ctxWipe _ => "CTX_WIPE"
  | .blkEnc _ => "BLK_ENC"
  | .blkDec _ => "BLK_DEC"
  | .cfbStart _ _ => "CFB_START"
  | .cfbData _ => "CFB_DATA"
  | .cfbEnd _ => "CFB_END"
  | .kwEncode _ _ => "KW_ENCODE"
  | .kwDecode _ _ => "KW_DECODE"
  | .hmacInit _ => "HMAC_INIT"
  | .hmacUpdate _ => "HMAC_UPDATE"
  | .hmacFinal _ => "HMAC_FINAL"
  | .hmacWipe _ => "HMAC_WIPE"
  | .ioWipe _ => "IO_WIPE"
  | .softReset _ => "SOFT_RESET"

end Sys2Proof
end

