-- ==== Sys2Proof/WellFormed.lean ====
section
/-! DEFINITION. Well-formedness. The type `Instr` can hold no ill-formed command (`DIR` is a
two-valued type, `LEN` and `METHOD` are free bytes), so what can be ill-formed is a command WORD:
a word is well formed when it fits a row of the opcode table by match and mask (rule R95), and is
illegal otherwise (rule R97). -/

namespace Sys2Proof

/-- One row of `opcode_table.json`: a word selects it when `w & mask = pattern` (rule R95). -/
structure OpcodeRow where
  mnemonic : String
  pattern : Word
  mask : Word
deriving DecidableEq, Repr

/-- The 15 rows of `opcode_table.json`, in its order. -/
def opcodeTable : List OpcodeRow :=
  [ ⟨"CTX_INIT",    0x00000001, 0xFF00FFFF⟩,
    ⟨"CTX_WIPE",    0x00000002, 0xFF00FFFF⟩,
    ⟨"BLK_ENC",     0x00000010, 0xFF00FFFF⟩,
    ⟨"BLK_DEC",     0x00000011, 0xFF00FFFF⟩,
    ⟨"CFB_START",   0x00000020, 0xFF00FEFF⟩,
    ⟨"CFB_DATA",    0x00000021, 0xFF00FFFF⟩,
    ⟨"CFB_END",     0x00000022, 0xFF00FFFF⟩,
    ⟨"KW_ENCODE",   0x00000030, 0xFF0000FF⟩,
    ⟨"KW_DECODE",   0x00000031, 0xFF0000FF⟩,
    ⟨"HMAC_INIT",   0x00000040, 0xFF00FFFF⟩,
    ⟨"HMAC_UPDATE", 0x00000041, 0xFF00FFFF⟩,
    ⟨"HMAC_FINAL",  0x00000042, 0xFF00FFFF⟩,
    ⟨"HMAC_WIPE",   0x00000043, 0xFF00FFFF⟩,
    ⟨"IO_WIPE",     0x00000050, 0xFF00FFFF⟩,
    ⟨"SOFT_RESET",  0x0000007F, 0xFF00FFFF⟩ ]

/-- The word fits the row (rule R95). -/
def OpcodeRow.selects (r : OpcodeRow) (w : Word) : Bool := w &&& r.mask == r.pattern

/-- A legal command word: it fits some row of the table (rules R95, R97). -/
def wordWellFormed (w : Word) : Bool := opcodeTable.any (·.selects w)

end Sys2Proof
end

