-- ==== Sys2Proof/Decode.lean ====
section
/-! DEFINITION. The decoder of rule R94, total on every 32-bit word and rejecting by name, and the
encoder of rule R101. -/

namespace Sys2Proof

/-- Why a word is illegal (rule R97). All four are the one error IllegalCommand (DESIGN CHOICE, safe,
log entry 8). -/
inductive IllegalCause where
  /-- `RSV != 0`. -/
  | reservedBits
  /-- `OPC` is not one of the 15 assigned values. -/
  | unassignedOpcode
  /-- `ARG != 0` for a command that takes no argument. -/
  | argNotZero
  /-- `ARG > 1` for CFB_START. -/
  | dirOutOfRange
deriving DecidableEq, Repr

/-- `OPC = w[7:0]` (rule R91). -/
def fieldOpc (w : Word) : Byte := w.extractLsb' 0 8
/-- `ARG = w[15:8]` (rule R91). -/
def fieldArg (w : Word) : Byte := w.extractLsb' 8 8
/-- `LEN = w[23:16]` (rule R91). -/
def fieldLen (w : Word) : Byte := w.extractLsb' 16 8
/-- `RSV = w[31:24]` (rule R91). -/
def fieldRsv (w : Word) : Byte := w.extractLsb' 24 8

/-- A command that takes no argument is illegal unless `ARG = 0` (rule R94). -/
def decodeNoArg (arg : Byte) (i : Instr) : Except IllegalCause Instr :=
  if arg = 0#8 then .ok i else .error .argNotZero

/-- CFB_START's argument: `DIR` is 0 or 1, anything above is illegal (rules R94, R98). -/
def decodeCfbStart (arg len : Byte) : Except IllegalCause Instr :=
  if arg = 0#8 then .ok (.cfbStart .enc len)
  else if arg = 1#8 then .ok (.cfbStart .dec len)
  else .error .dirOutOfRange

/-- `OPC` selects the command, or the word is illegal (rules R93, R94). -/
def decodeFields (opc arg len : Byte) : Except IllegalCause Instr :=
  if opc = 0x01#8 then decodeNoArg arg (.ctxInit len)
  else if opc = 0x02#8 then decodeNoArg arg (.ctxWipe len)
  else if opc = 0x10#8 then decodeNoArg arg (.blkEnc len)
  else if opc = 0x11#8 then decodeNoArg arg (.blkDec len)
  else if opc = 0x20#8 then decodeCfbStart arg len
  else if opc = 0x21#8 then decodeNoArg arg (.cfbData len)
  else if opc = 0x22#8 then decodeNoArg arg (.cfbEnd len)
  else if opc = 0x30#8 then .ok (.kwEncode arg len)
  else if opc = 0x31#8 then .ok (.kwDecode arg len)
  else if opc = 0x40#8 then decodeNoArg arg (.hmacInit len)
  else if opc = 0x41#8 then decodeNoArg arg (.hmacUpdate len)
  else if opc = 0x42#8 then decodeNoArg arg (.hmacFinal len)
  else if opc = 0x43#8 then decodeNoArg arg (.hmacWipe len)
  else if opc = 0x50#8 then decodeNoArg arg (.ioWipe len)
  else if opc = 0x7F#8 then decodeNoArg arg (.softReset len)
  else .error .unassignedOpcode

/-- The decoder: every word selects exactly one command or is illegal (rule R94). -/
def decode (w : Word) : Except IllegalCause Instr :=
  if fieldRsv w = 0#8 then decodeFields (fieldOpc w) (fieldArg w) (fieldLen w)
  else .error .reservedBits

/-- The operation code of a command (rule R93). -/
def Instr.opcode : Instr → Byte
  | .ctxInit _ => 0x01
  | .ctxWipe _ => 0x02
  | .blkEnc _ => 0x10
  | .blkDec _ => 0x11
  | .cfbStart _ _ => 0x20
  | .cfbData _ => 0x21
  | .cfbEnd _ => 0x22
  | .kwEncode _ _ => 0x30
  | .kwDecode _ _ => 0x31
  | .hmacInit _ => 0x40
  | .hmacUpdate _ => 0x41
  | .hmacFinal _ => 0x42
  | .hmacWipe _ => 0x43
  | .ioWipe _ => 0x50
  | .softReset _ => 0x7F

/-- The field `ARG` of a command: its `DIR` or `METHOD`, otherwise 0 (rules R91, R98). -/
def Instr.arg : Instr → Byte
  | .cfbStart .enc _ => 0
  | .cfbStart .dec _ => 1
  | .kwEncode method _ => method
  | .kwDecode method _ => method
  | .ctxInit _ | .ctxWipe _ | .blkEnc _ | .blkDec _ | .cfbData _ | .cfbEnd _
  | .hmacInit _ | .hmacUpdate _ | .hmacFinal _ | .hmacWipe _ | .ioWipe _ | .softReset _ => 0

/-- The field `LEN` of a command (rule R91). -/
def Instr.len : Instr → Byte
  | .ctxInit len => len
  | .ctxWipe len => len
  | .blkEnc len => len
  | .blkDec len => len
  | .cfbStart _ len => len
  | .cfbData len => len
  | .cfbEnd len => len
  | .kwEncode _ len => len
  | .kwDecode _ len => len
  | .hmacInit len => len
  | .hmacUpdate len => len
  | .hmacFinal len => len
  | .hmacWipe len => len
  | .ioWipe len => len
  | .softReset len => len

/-- The command word, `RSV = 0` above `LEN`, `ARG`, `OPC`: `OPC + 2^8*ARG + 2^16*LEN`
(rules R90, R101). -/
def encode (i : Instr) : Word := 0#8 ++ i.len ++ i.arg ++ i.opcode

/-- The command the decoder reads from a word numbered as the opcode table numbers it. A command is
one 32-bit word and is never stored in a memory (rules R72, R90), so no byte order enters. -/
def decodeTableWord (nbits w : Nat) : Option Instr :=
  let v := w % 2 ^ nbits
  if v < 2 ^ 32 then
    match decode (BitVec.ofNat 32 v) with
    | .ok i => some i
    | .error _ => none
  else none

end Sys2Proof
end

