-- ==== Sys2Proof/Config.lean ====
section
/-! DEFINITION. The configuration of a core instance: the two open parameters `SBOX` and `H`
(rules R6, R7), which are constants without a body, and the fixed parameters of rule R5. -/

namespace Sys2Proof

/-- The type of the S-box table: `sbox i x` is `SBOX[i][x]`, eight rows of sixteen 4-bit
entries; no property of the entries is assumed (rules R6, R120). -/
abbrev SBox := Fin 8 → BitVec 4 → BitVec 4

/-- The type of the underlying hash: any function from byte sequences to 32 bytes
(rules R7, R210). -/
abbrev HashFn := Bytes → Key

/-- The open parameter `SBOX` of this core instance (rule R6). DESIGN CHOICE, safe, log entry 1:
a constant without a body, so nothing can be proved of its entries. -/
opaque Config.sbox : SBox

/-- The open parameter `H` of this core instance (rule R7). DESIGN CHOICE, safe, log entry 2:
a constant without a body, so nothing can be proved of its values. -/
opaque Config.hash : HashFn

/-- `IPAD` of rule R5. -/
def Config.ipad : Byte := 0x36#8

/-- `OPAD` of rule R5. -/
def Config.opad : Byte := 0x5C#8

/-- `BLOCK_BYTES` (and `IV_BYTES`, `UKM_BYTES`, `TAG_BYTES`) of rule R5. -/
def Config.blockBytes : Nat := 8

/-- `KEY_BYTES` of rule R5. -/
def Config.keyBytes : Nat := 32

/-- `HASH_BLOCK_BYTES` of rule R5: the HMAC block size and key-reduction threshold (rule R219). -/
def Config.hashBlockBytes : Nat := 32

/-- `DIGEST_BYTES` of rule R5. -/
def Config.digestBytes : Nat := 32

end Sys2Proof
end

