-- ==== Sys2Proof/Machine/State.lean ====
section
/-! DEFINITION. The state of one core instance (rule R20), the host moves that drive it
(rules R60, R280, R286), its reset value (rule R42) and the ways a step can stop. -/

namespace Sys2Proof.Machine

/-- `CSTATE`, the state of the cipher context (rule R23). -/
inductive CState where
  /-- `C_EMPTY`, code 0: no key bound. -/
  | cEmpty
  /-- `C_KEYED`, code 1: a key is bound, no stream is open. -/
  | cKeyed
  /-- `C_STREAM_ENC`, code 2: a CFB encryption stream is open. -/
  | cStreamEnc
  /-- `C_STREAM_DEC`, code 3: a CFB decryption stream is open. -/
  | cStreamDec
deriving DecidableEq, Repr

/-- `HSTATE`, the state of the HMAC context (rule R27). -/
inductive HState where
  /-- `H_NONE`, code 0: no HMAC context. -/
  | hNone
  /-- `H_INITIALIZED`, code 1: keys derived, no update yet. -/
  | hInitialized
  /-- `H_ACCUMULATING`, code 2: at least one HMAC_UPDATE has succeeded. -/
  | hAccumulating
  /-- `H_FINALIZED`, code 3: the digest has been produced. -/
  | hFinalized
deriving DecidableEq, Repr

/-- The six error kinds (rule R250). -/
inductive ErrorKind where
  /-- Code 1: `LEN` outside the command's legal set. -/
  | invalidSize
  /-- Code 2: `METHOD` outside the closed set. -/
  | unsupportedMethod
  /-- Code 3: the key-transport verification failed. -/
  | integrityError
  /-- Code 4: HMAC context reused after digest extraction. -/
  | useAfterFinalize
  /-- Code 5: the context is not in a state the command may be used in. -/
  | badState
  /-- Code 6: the word encodes no command. -/
  | illegalCommand
deriving DecidableEq, Repr

/-- The contents of `ERR` (rules R32, R250). Codes 7..15 are never produced (entry U7), and this
type does not hold them (DESIGN CHOICE, safe, log entry 11). -/
inductive ErrCode where
  /-- Code 0: the last command succeeded. -/
  | noError
  /-- The last command failed. -/
  | error (kind : ErrorKind)
deriving DecidableEq, Repr

/-- One move of the outside world: an access of the host to the register space (rule R60), of any
offset and size in bytes, or the hardware reset (rule R280). A write of a size other than 4 is
refused whatever its data is (rule R63), so a 32-bit datum is enough. -/
inductive HostMove where
  /-- `MemRead(off, size)`. -/
  | read (off size : Nat)
  /-- `MemWrite(off, size, v)`. -/
  | write (off size : Nat) (v : Word)
  /-- The hardware reset input is asserted between two commands. -/
  | hardReset
deriving DecidableEq, Repr

/-- What the bus answered to the last host move. -/
inductive BusReply where
  /-- No access since reset. -/
  | idle
  /-- A write was accepted. -/
  | ack
  /-- The word a read returned (rule R65). -/
  | data (w : Word)
deriving DecidableEq, Repr

/-- The machine. The first twelve fields are the complete architectural state of rule R20; the last
two are the MODEL's own: the host's moves still to come, and the bus's answer to the last one
(DESIGN CHOICE, safe, log entry 3). The transients of rule R37 are not state (log entry 7). -/
structure State where
  /-- `K[0..7]`, rule R21. -/
  k : Subkeys
  /-- `SR`, rule R22. -/
  sr : Block
  /-- `CSTATE`, rule R23. -/
  cstate : CState
  /-- `IKEY`, rule R25. -/
  ikey : Key
  /-- `OKEY`, rule R25. -/
  okey : Key
  /-- `HACC`, rule R26: the bytes absorbed by the inner hash, without a length bound (DESIGN CHOICE,
  unsafe, log entry 9). -/
  hacc : Bytes
  /-- `HSTATE`, rule R27. -/
  hstate : HState
  /-- `DIN[0..127]`, rule R29; all 128 bytes are held (DESIGN CHOICE, safe, log entry 6). -/
  din : Vector Byte 128
  /-- `DOUT[0..63]`, rule R30; all 64 bytes are held (DESIGN CHOICE, safe, log entry 6). -/
  dout : Vector Byte 64
  /-- `OLEN`, 8 bits, rule R31. -/
  olen : Byte
  /-- `ERR`, 4 bits, rule R32. -/
  err : ErrCode
  /-- `ESTICKY`, 1 bit, rule R33. -/
  esticky : Bool
  /-- MODEL's own: the host moves not yet performed, first one first (rule R286). -/
  pending : List HostMove
  /-- MODEL's own: the bus's answer to the last host move. -/
  reply : BusReply
deriving DecidableEq, Repr

/-- The machine after hardware reset, every element at the value of rule R42 (log entry 10). The model's own
fields are empty: no host move is pending and none has been answered (log entry 3). -/
def State.reset : State where
  k := zeroWords
  sr := zeros 8
  cstate := .cEmpty
  ikey := zeros 32
  okey := zeros 32
  hacc := []
  hstate := .hNone
  din := zeros 128
  dout := zeros 64
  olen := 0#8
  err := .noError
  esticky := false
  pending := []
  reply := .idle

/-- How a step can stop with a fault. -/
inductive Fault where
  /-- The bus refuses an access that is misaligned, not 32 bits wide, or to an unmapped offset
  (rules R62, R63). Raised by `hostMove` alone, never by a command. The core's state is the one the
  step was taken from. Safe (log entry 4): the model stops where the host could go on. -/
  | busError
deriving DecidableEq, Repr

/-- How a step can be refused. -/
inductive Refusal where
  /-- A command without a meaning, by its mnemonic. Raised by `exec`'s arms alone; no arm of this
  model raises it. Safe: nothing is proved of what is refused. -/
  | notModelled (mnemonic : String)
deriving DecidableEq, Repr

end Sys2Proof.Machine
end

