-- ==== Sys2Proof/Machine/Flags.lean ====
section
/-! DEFINITION. The status elements as the host reads them: the codes of `ERR`, `CSTATE` and `HSTATE`,
and the words of STATUS and PARAM (rules R23, R27, R35, R36, R250). -/

namespace Sys2Proof.Machine

/-- The code of an error kind (rule R250). -/
def errorCode : ErrorKind → BitVec 4
  | .invalidSize => 1
  | .unsupportedMethod => 2
  | .integrityError => 3
  | .useAfterFinalize => 4
  | .badState => 5
  | .illegalCommand => 6

/-- The contents of `ERR` as four bits (rules R32, R250). -/
def errBits : ErrCode → BitVec 4
  | .noError => 0
  | .error kind => errorCode kind

/-- The code of `CSTATE` (rule R23). -/
def cstateBits : CState → BitVec 2
  | .cEmpty => 0
  | .cKeyed => 1
  | .cStreamEnc => 2
  | .cStreamDec => 3

/-- The code of `HSTATE` (rule R27). -/
def hstateBits : HState → BitVec 2
  | .hNone => 0
  | .hInitialized => 1
  | .hAccumulating => 2
  | .hFinalized => 3

/-- The STATUS word: from bit 31 down, 0, `OLEN`, 0, `HSTATE`, 0, `CSTATE`, 0, `ESTICKY`, `ERR`
(rule R35). -/
def statusWord (s : State) : Word :=
  0#8 ++ s.olen ++ 0#2 ++ hstateBits s.hstate ++ 0#2 ++ cstateBits s.cstate ++ 0#3 ++
    BitVec.ofBool s.esticky ++ errBits s.err

/-- The PARAM word, a constant: from bit 31 down the digest size, the HMAC block size, the key size and
the cipher block size, in bytes; its value is 0x20202008 (rule R36, conflict C4). -/
def paramWord : Word :=
  BitVec.ofNat 8 Config.digestBytes ++ BitVec.ofNat 8 Config.hashBlockBytes ++
    BitVec.ofNat 8 Config.keyBytes ++ BitVec.ofNat 8 Config.blockBytes

end Sys2Proof.Machine
end

