-- ==== Sys2Proof/Machine/Bits.lean ====
section
/-! DEFINITION. Byte order, rotation, sub-sequences and bytewise exclusive or (rules R9 to R11). -/

namespace Sys2Proof.Machine

/-- `le32(s)`: byte 0 is bits 7:0 of the word (rule R11; UNVERIFIED, unsafe, log entry 16). -/
def le32 (s : Vector Byte 4) : Word := s[3] ++ s[2] ++ s[1] ++ s[0]

/-- `bytes32le(w)`: bits 7:0 are byte 0 (rule R11). -/
def bytes32le (w : Word) : Vector Byte 4 :=
  #v[w.extractLsb' 0 8, w.extractLsb' 8 8, w.extractLsb' 16 8, w.extractLsb' 24 8]

/-- `rotl32(a, n)` for 0 < n < 32 (rule R10). -/
def rotl32 (a : Word) (n : Nat) : Word := (a <<< n) ||| (a >>> (32 - n))

/-- `v[off .. off+n-1]` (rule R9). -/
def slice {m : Nat} (v : Vector Byte m) (off n : Nat) (h : off + n ≤ m := by decide) :
    Vector Byte n :=
  ⟨((v.toList.drop off).take n).toArray, by simp; omega⟩

/-- A byte sequence as one of length `n`: zero bytes are added when it is shorter, as in
`s || zeros(n - len(s))` (rules R9, R76, R211); callers never pass a longer one
(DESIGN CHOICE, safe, log entry 15). -/
def ofBytes (n : Nat) (s : Bytes) : Vector Byte n :=
  ⟨((s ++ List.replicate n 0#8).take n).toArray, by simp⟩

/-- `s xor t` for equal lengths (rule R9). -/
def xorV {n : Nat} (s t : Vector Byte n) : Vector Byte n := Vector.zipWith (· ^^^ ·) s t

/-- `s xor t` on sequences; the shorter length decides, as a partial segment uses the first
bytes of the keystream block (rule R160). -/
def xorBytes (s t : Bytes) : Bytes := List.zipWith (· ^^^ ·) s t

end Sys2Proof.Machine
end

