-- ==== Sys2Proof/Machine/CipherCore.lean ====
section
/-! DEFINITION. The Cipher Core as pure functions of an arbitrary S-box table: substitution, round
function, key schedule, and the 32-round block transform (rules R120 to R130). -/

namespace Sys2Proof.Machine

/-- `Sub(x)`: nibble `i` of the result is `SBOX[i][nibble i of x]`, nibble 0 the least
significant (rule R121; UNVERIFIED, safe, log entry 16). -/
def sub (sbox : SBox) (x : Word) : Word :=
  let n (i : Fin 8) : BitVec 4 := sbox i (x.extractLsb' (4 * i.val) 4)
  n 7 ++ n 6 ++ n 5 ++ n 4 ++ n 3 ++ n 2 ++ n 1 ++ n 0

/-- `F(n, k)`, the round function (rule R122). -/
def roundF (sbox : SBox) (n k : Word) : Word := rotl32 (sub sbox (n + k)) 11

/-- `KeyWords(key)`: the whole key schedule derivation (rule R123). -/
def keyWords (key : Key) : Subkeys :=
  Vector.ofFn fun i : Fin 8 => le32 (slice key (4 * i.val) 4 (by omega))

/-- `ksel(r)`, the subkey index of round `r` of an encryption, 1 ≤ r ≤ 32 (rule R124; other rounds:
log entry 15). -/
def ksel (r : Nat) : Fin 8 :=
  if h : r ≤ 24 then ⟨(r - 1) % 8, Nat.mod_lt _ (by decide)⟩ else ⟨32 - r, by omega⟩

/-- `dsel(r)`, the subkey index of round `r` of a decryption, 1 ≤ r ≤ 32 (rule R125). -/
def dsel (r : Nat) : Fin 8 :=
  if h : r ≤ 8 then ⟨r - 1, by omega⟩ else ⟨(32 - r) % 8, Nat.mod_lt _ (by decide)⟩

/-- The two halves `(N1, N2)` of the working value (rule R126). -/
abbrev Halves := Word × Word

/-- A block split into its halves (rule R126; UNVERIFIED, unsafe, log entry 16). -/
def toHalves (b : Block) : Halves := (le32 (slice b 0 4), le32 (slice b 4 4))

/-- The halves put back into a block (rule R126). -/
def ofHalves (x : Halves) : Block := bytes32le x.1 ++ bytes32le x.2

/-- `Round(k, (N1, N2))`, rounds 1 to 31: the function value of `N1` goes into the other half, and
the halves swap (rule R127, conflict C1). -/
def feistelRound (sbox : SBox) (k : Word) (x : Halves) : Halves :=
  (x.2 ^^^ roundF sbox x.1 k, x.1)

/-- `LastRound(k, (N1, N2))`, round 32: no swap (rule R128). -/
def lastRound (sbox : SBox) (k : Word) (x : Halves) : Halves :=
  (x.1, x.2 ^^^ roundF sbox x.1 k)

/-- Rounds 1 to `n`, round `r` with subkey `k[sel r]` (rules R129, R130). -/
def rounds (sbox : SBox) (k : Subkeys) (sel : Nat → Fin 8) : Nat → Halves → Halves
  | 0, x => x
  | n + 1, x => feistelRound sbox k[sel (n + 1)] (rounds sbox k sel n x)

/-- The 32 rounds under a subkey order (rules R129, R130). -/
def crypt (sbox : SBox) (k : Subkeys) (sel : Nat → Fin 8) (b : Block) : Block :=
  ofHalves (lastRound sbox k[sel 32] (rounds sbox k sel 31 (toHalves b)))

/-- `Enc` under the subkeys of a key, as the bound key holds them (rule R129). -/
def encWords (sbox : SBox) (k : Subkeys) (b : Block) : Block := crypt sbox k ksel b

/-- `Dec` under the subkeys of a key (rule R130). -/
def decWords (sbox : SBox) (k : Subkeys) (b : Block) : Block := crypt sbox k dsel b

/-- `Enc(key, b)` (rule R129). -/
def enc (sbox : SBox) (key : Key) (b : Block) : Block := encWords sbox (keyWords key) b

/-- `Dec(key, b)` (rule R130). -/
def dec (sbox : SBox) (key : Key) (b : Block) : Block := decWords sbox (keyWords key) b

end Sys2Proof.Machine
end

