-- ==== Sys2Proof/Machine/CfbMode.lean ====
section
/-! DEFINITION. The Mode Wrapper as pure functions: one CFB-64 segment, a run of segments, and the
contracts of the source (rules R160 to R163). -/

namespace Sys2Proof.Machine

/-- `CfbStep(dir, key, sr, m)` for a segment `m` of 1 to 8 bytes: the output segment and the new
register. The cipher core encrypts in both directions, and the register takes the ciphertext
(rules R160, R161). -/
def cfbStep (sbox : SBox) (dir : Dir) (k : Subkeys) (sr : Block) (m : Bytes) : Bytes × Block :=
  let o := xorBytes m (encWords sbox k sr).toList
  let c := match dir with
    | .enc => o
    | .dec => m
  (o, if m.length = 8 then ofBytes 8 c else zeros 8)

/-- The loop of `CfbRun`, with a bound on the number of segments (rule R162). -/
def cfbLoop (sbox : SBox) (dir : Dir) (k : Subkeys) : Nat → Block → Bytes → Bytes × Block
  | 0, sr, _ => ([], sr)
  | n + 1, sr, data =>
    if data = [] then ([], sr)
    else
      let seg := cfbStep sbox dir k sr (data.take 8)
      let rest := cfbLoop sbox dir k n seg.2 (data.drop 8)
      (seg.1 ++ rest.1, rest.2)

/-- `CfbRun(dir, key, sr, data)`: the output and the final register (rule R162). A sequence has no
more segments than bytes, so its length bounds the loop. -/
def cfbRun (sbox : SBox) (dir : Dir) (k : Subkeys) (sr : Block) (data : Bytes) : Bytes × Block :=
  cfbLoop sbox dir k data.length sr data

/-- `CfbEnc(key, iv, plaintext)` (rule R163). -/
def cfbEnc (sbox : SBox) (key : Key) (iv : Block) (plaintext : Bytes) : Bytes :=
  (cfbRun sbox .enc (keyWords key) iv plaintext).1

/-- `CfbDec(key, iv, ciphertext)` (rule R163). -/
def cfbDec (sbox : SBox) (key : Key) (iv : Block) (ciphertext : Bytes) : Bytes :=
  (cfbRun sbox .dec (keyWords key) iv ciphertext).1

end Sys2Proof.Machine
end

