-- ==== Sys2Proof/Machine/KeyWrap.lean ====
section
/-! DEFINITION. The Key Transport Codec as pure functions: transport key, diversification, wrapping,
tag, and the blob's encoder and decoder (rules R183 to R189). -/

namespace Sys2Proof.Machine

/-- The closed set of export methods (rules R99, R180). -/
inductive Method where
  /-- `KW_PLAIN`, code 1. -/
  | plain
  /-- `KW_DIVERSIFIED`, code 2. -/
  | diversified
deriving DecidableEq, Repr

/-- The method code (rule R99). -/
def methodCode : Method → Byte
  | .plain => 1
  | .diversified => 2

/-- `METHOD` read as a method; every other value, 0 included, is outside the closed set
(rule R99). -/
def methodOf (code : Byte) : Option Method :=
  if code = 1#8 then some .plain else if code = 2#8 then some .diversified else none

/-- An encoded key-exchange blob: 49 bytes (rule R183). -/
abbrev Blob := Vector Byte 49

/-- The sums `s1`, `s2` of one iteration of `Div`: the words selected by the bits of `u`, and the
others (rule R185). -/
def divSums (k : Key) (u : Byte) : Word × Word :=
  (List.finRange 8).foldl
    (fun s j =>
      if u.getLsbD j.val then (s.1 + (keyWords k)[j], s.2) else (s.1, s.2 + (keyWords k)[j]))
    (0, 0)

/-- One iteration of `Div`: the key encrypts itself in CFB mode under the IV made of the two sums
(rule R185). -/
def divStep (sbox : SBox) (k : Key) (u : Byte) : Key :=
  let s := divSums k u
  ofBytes 32 (cfbEnc sbox k (bytes32le s.1 ++ bytes32le s.2) k.toList)

/-- `Div(KEK, UKM)`: eight iterations, one for each byte of `UKM` (rule R185). -/
def div (sbox : SBox) (kek : Key) (ukm : Block) : Key := ukm.toList.foldl (divStep sbox) kek

/-- `TransportKey(method, KEK, UKM)` (rule R184). -/
def transportKey (sbox : SBox) (method : Method) (kek : Key) (ukm : Block) : Key :=
  match method with
  | .plain => kek
  | .diversified => div sbox kek ukm

/-- The concatenation of four blocks (rules R9, R186). -/
def joinBlocks (a b c d : Block) : Key := a ++ b ++ c ++ d

/-- `WrapBlocks(TK, S)` (rule R186). -/
def wrapBlocks (sbox : SBox) (tk s : Key) : Key :=
  joinBlocks (enc sbox tk (slice s 0 8)) (enc sbox tk (slice s 8 8))
    (enc sbox tk (slice s 16 8)) (enc sbox tk (slice s 24 8))

/-- `UnwrapBlocks(TK, C)` (rule R186). -/
def unwrapBlocks (sbox : SBox) (tk c : Key) : Key :=
  joinBlocks (dec sbox tk (slice c 0 8)) (dec sbox tk (slice c 8 8))
    (dec sbox tk (slice c 16 8)) (dec sbox tk (slice c 24 8))

/-- `KwTag(TK, UKM, S)`: a chain of four encryptions over the plaintext session key, started from
the `UKM` (rule R187). -/
def kwTag (sbox : SBox) (tk : Key) (ukm : Block) (s : Key) : Block :=
  let t0 := enc sbox tk (xorV ukm (slice s 0 8))
  let t1 := enc sbox tk (xorV t0 (slice s 8 8))
  let t2 := enc sbox tk (xorV t1 (slice s 16 8))
  enc sbox tk (xorV t2 (slice s 24 8))

/-- A blob made of its four fields (rule R183). -/
def joinBlob (method : Byte) (ukm : Block) (c : Key) (t : Block) : Blob :=
  #v[method] ++ ukm ++ c ++ t

/-- The blob field `M`, byte 0 (rule R183). -/
def blobMethod (b : Blob) : Byte := b[0]
/-- The blob field `UKM`, bytes 1..8 (rule R183). -/
def blobUkm (b : Blob) : Block := slice b 1 8
/-- The blob field `C`, bytes 9..40 (rule R183). -/
def blobCipher (b : Blob) : Key := slice b 9 32
/-- The blob field `T`, bytes 41..48 (rule R183). -/
def blobTag (b : Blob) : Block := slice b 41 8

/-- `KwEncode(method, KEK, UKM, S)` (rule R188). -/
def kwEncodeBlob (sbox : SBox) (method : Method) (kek : Key) (ukm : Block) (s : Key) : Blob :=
  let tk := transportKey sbox method kek ukm
  joinBlob (methodCode method) ukm (wrapBlocks sbox tk s) (kwTag sbox tk ukm s)

/-- `KwDecode(method, KEK, blob)`; `none` is the spec's `fail` (rule R189). The method of the
computation is the command's; the blob's byte `M` is only compared (conflict C5). -/
def kwDecodeBlob (sbox : SBox) (method : Method) (kek : Key) (b : Blob) : Option Key :=
  let tk := transportKey sbox method kek (blobUkm b)
  let s := unwrapBlocks sbox tk (blobCipher b)
  if blobMethod b = methodCode method ∧ kwTag sbox tk (blobUkm b) s = blobTag b then some s
  else none

end Sys2Proof.Machine
end

