-- ==== Sys2Proof/Machine/Operands.lean ====
section
/-! DEFINITION. The operand forms of the commands: the first `LEN` bytes of `DIN`, fields of `DIN` at
fixed offsets, and the direction of the open stream (rules R12, R29, R76, R182). -/

namespace Sys2Proof.Machine

/-- `In(n)`: the byte sequence `DIN[0..n-1]`, for n ≤ 128 (rule R76). -/
def inBytes (n : Nat) (s : State) : Bytes := s.din.toList.take n

/-- `DIN[off .. off+n-1]`, an operand of fixed length at a fixed offset (rules R76, R182). -/
def dinField (off n : Nat) (s : State) (h : off + n ≤ 128 := by decide) : Vector Byte n :=
  slice s.din off n h

/-- The key operand of CTX_INIT: `In(32)` (rule R134). -/
def keyOperand (s : State) : Key := dinField 0 32 s

/-- The block operand of BLK_ENC and BLK_DEC and the IV operand of CFB_START: `In(8)`
(rules R136, R137, R166). -/
def blockOperand (s : State) : Block := dinField 0 8 s

/-- `KEK`, the key-exchange key of KW_ENCODE and KW_DECODE (rule R182). -/
def kekOperand (s : State) : Key := dinField 0 32 s

/-- `S`, the session key of KW_ENCODE (rule R182). -/
def sessionKeyOperand (s : State) : Key := dinField 32 32 s

/-- `UKM`, the diversification data of KW_ENCODE (rules R181, R182). -/
def ukmOperand (s : State) : Block := dinField 64 8 s

/-- The blob of KW_DECODE (rule R182). -/
def blobOperand (s : State) : Blob := dinField 32 49 s

/-- The direction of the open stream, none when no stream is open (rules R23, R167). -/
def streamDir : CState → Option Dir
  | .cStreamEnc => some .enc
  | .cStreamDec => some .dec
  | .cEmpty => none
  | .cKeyed => none

/-- The state of a stream opened in a direction (rule R166). -/
def streamState : Dir → CState
  | .enc => .cStreamEnc
  | .dec => .cStreamDec

end Sys2Proof.Machine
end

