-- ==== Sys2Proof/Machine/Ops.lean ====
section
/-! DEFINITION. The named operations on the state that the command rules share: the result and operand
buffers (rule R76), ending a command with success or with an error (rules R94, R253, R254), and
reset (rules R42, R280). -/

namespace Sys2Proof.Machine

/-- `SetOut(s)`: the result at the start of `DOUT`, zero bytes in the rest, and its length in `OLEN`,
for len(s) ≤ 64 (rules R30, R31, R76). -/
def setOut (out : Bytes) (s : State) : State :=
  { s with dout := ofBytes 64 out, olen := BitVec.ofNat 8 out.length }

/-- `WipeDin()` (rule R12). -/
def wipeDin (s : State) : State := { s with din := zeros 128 }

/-- The end of a command that raised nothing: `ERR <- 0` (rule R94). `ESTICKY` stays (rule R33). This
is also all there is of going on after an error: no handler, no return (rule R256). -/
def succeed (s : State) : State := { s with err := .noError }

/-- Taking an exception: `raise` of an error kind records it in `ERR` and sets `ESTICKY`, and nothing
else changes (rules R12, R253). -/
def raise (kind : ErrorKind) (s : State) : State :=
  { s with err := .error kind, esticky := true }

/-- The entry of IntegrityError, which is raised after the computation and wipes both buffers
(rule R254). -/
def raiseIntegrity (s : State) : State :=
  raise .integrityError (setOut [] (wipeDin s))

/-- The cipher context destroyed: `K` and `SR` zero, `C_EMPTY` (rule R135). -/
def dropCipherContext (s : State) : State :=
  { s with k := zeroWords, sr := zeros 8, cstate := .cEmpty }

/-- A stream closed, its key still bound: `SR` zero, `C_KEYED` (rules R167, R168). -/
def closeStream (s : State) : State := { s with sr := zeros 8, cstate := .cKeyed }

/-- The HMAC context destroyed, its slot left in the given state (rules R216, R217). -/
def dropHmacContext (h : HState) (s : State) : State :=
  { s with ikey := zeros 32, okey := zeros 32, hacc := [], hstate := h }

/-- Reset: every element of the core at its reset value (rules R42, R241, R280). The moves the host
has still to make, and the bus's answer to the last one, are not elements of the core (DESIGN CHOICE,
safe, log entry 12). -/
def resetCore (s : State) : State :=
  { State.reset with pending := s.pending, reply := s.reply }

end Sys2Proof.Machine
end

