-- ==== Sys2Proof/Machine/Cfb.lean ====
section
/-! DEFINITION. The meanings of CFB_START, CFB_DATA and CFB_END (rules R166 to R168). -/

namespace Sys2Proof.Machine

/-- CFB_START: open a stream and load the IV (rule R166). -/
def execCfbStart (dir : Dir) (len : Byte) (s : State) : Host.Outcome State Fault Refusal :=
  if s.cstate ≠ .cKeyed then .next (raise .badState s)
  else if len ≠ 8#8 then .next (raise .invalidSize s)
  else .next (succeed { s with sr := blockOperand s, cstate := streamState dir })

/-- CFB_DATA: transform the next `LEN` bytes of the stream; a partial segment is final and closes it
(rule R167). -/
def execCfbData (len : Byte) (s : State) : Host.Outcome State Fault Refusal :=
  match streamDir s.cstate with
  | none => .next (raise .badState s)
  | some dir =>
    if len = 0#8 ∨ 64 < len.toNat then .next (raise .invalidSize s)
    else
      let r := cfbRun Config.sbox dir s.k s.sr (inBytes len.toNat s)
      if len.toNat % 8 = 0 then .next (succeed { setOut r.1 s with sr := r.2 })
      else .next (succeed (closeStream (setOut r.1 s)))

/-- CFB_END: close the stream (rule R168). -/
def execCfbEnd (len : Byte) (s : State) : Host.Outcome State Fault Refusal :=
  match streamDir s.cstate with
  | none => .next (raise .badState s)
  | some _ =>
    if len ≠ 0#8 then .next (raise .invalidSize s)
    else .next (succeed (closeStream s))

end Sys2Proof.Machine
end

