-- ==== Sys2Proof/Machine/Cipher.lean ====
section
/-! DEFINITION. The meanings of CTX_INIT, CTX_WIPE, BLK_ENC and BLK_DEC (rules R134 to R137). The checks
stand in the order of rule R252. -/

namespace Sys2Proof.Machine

/-- CTX_INIT: bind a key to the cipher context (rule R134). -/
def execCtxInit (len : Byte) (s : State) : Host.Outcome State Fault Refusal :=
  if s.cstate ≠ .cEmpty then .next (raise .badState s)
  else if len ≠ 32#8 then .next (raise .invalidSize s)
  else .next (succeed (wipeDin
    { s with k := keyWords (keyOperand s), sr := zeros 8, cstate := .cKeyed }))

/-- CTX_WIPE: destroy the cipher context, an open stream included (rule R135). -/
def execCtxWipe (len : Byte) (s : State) : Host.Outcome State Fault Refusal :=
  if len ≠ 0#8 then .next (raise .invalidSize s)
  else .next (succeed (dropCipherContext s))

/-- BLK_ENC: encrypt one block under the bound key (rule R136). -/
def execBlkEnc (len : Byte) (s : State) : Host.Outcome State Fault Refusal :=
  if s.cstate ≠ .cKeyed then .next (raise .badState s)
  else if len ≠ 8#8 then .next (raise .invalidSize s)
  else .next (succeed (setOut (encWords Config.sbox s.k (blockOperand s)).toList s))

/-- BLK_DEC: decrypt one block under the bound key (rule R137). -/
def execBlkDec (len : Byte) (s : State) : Host.Outcome State Fault Refusal :=
  if s.cstate ≠ .cKeyed then .next (raise .badState s)
  else if len ≠ 8#8 then .next (raise .invalidSize s)
  else .next (succeed (setOut (decWords Config.sbox s.k (blockOperand s)).toList s))

end Sys2Proof.Machine
end

