-- ==== Sys2Proof/Machine/HmacCore.lean ====
section
/-! DEFINITION. The HMAC construction as pure functions of an arbitrary hash (rules R210 to R213). -/

namespace Sys2Proof.Machine

/-- `HmacK0(key)`, the block-sized key: a key longer than the hash's block is hashed, any other is
padded with zero bytes (rule R211). -/
def hmacK0 (hash : HashFn) (key : Bytes) : Key :=
  if key.length > Config.hashBlockBytes then hash key else ofBytes 32 key

/-- `innerKey = K0 xor rep(0x36, 32)` (rule R212). -/
def hmacInnerKey (k0 : Key) : Key := xorV k0 (Vector.replicate 32 Config.ipad)

/-- `outerKey = K0 xor rep(0x5c, 32)` (rule R212). -/
def hmacOuterKey (k0 : Key) : Key := xorV k0 (Vector.replicate 32 Config.opad)

/-- `H(outerKey || H(absorbed))`, the last step of the construction, on the bytes the inner hash
has absorbed (rules R213, R216). -/
def hmacDigest (hash : HashFn) (outerKey : Key) (absorbed : Bytes) : Key :=
  hash (outerKey.toList ++ (hash absorbed).toList)

/-- `Hmac(key, message)` (rule R213). -/
def hmac (hash : HashFn) (key message : Bytes) : Key :=
  let k0 := hmacK0 hash key
  hmacDigest hash (hmacOuterKey k0) ((hmacInnerKey k0).toList ++ message)

end Sys2Proof.Machine
end

