-- ==== Sys2Proof/Machine/Hmac.lean ====
section
/-! DEFINITION. The meanings of HMAC_INIT, HMAC_UPDATE, HMAC_FINAL and HMAC_WIPE (rules R214 to R217). -/

namespace Sys2Proof.Machine

/-- The error of HMAC_UPDATE and HMAC_FINAL for the state of the slot, none when a context is live
(rules R28, R215, R216, R252). -/
def hmacLiveError : HState → Option ErrorKind
  | .hFinalized => some .useAfterFinalize
  | .hNone => some .badState
  | .hInitialized => none
  | .hAccumulating => none

/-- HMAC_INIT: create the HMAC context from a key (rule R214). -/
def execHmacInit (len : Byte) (s : State) : Host.Outcome State Fault Refusal :=
  if s.hstate = .hInitialized ∨ s.hstate = .hAccumulating then .next (raise .badState s)
  else if 128 < len.toNat then .next (raise .invalidSize s)
  else
    let k0 := hmacK0 Config.hash (inBytes len.toNat s)
    .next (succeed (wipeDin
      { s with
        ikey := hmacInnerKey k0
        okey := hmacOuterKey k0
        hacc := (hmacInnerKey k0).toList
        hstate := .hInitialized }))

/-- HMAC_UPDATE: feed a chunk of the message (rule R215). -/
def execHmacUpdate (len : Byte) (s : State) : Host.Outcome State Fault Refusal :=
  match hmacLiveError s.hstate with
  | some e => .next (raise e s)
  | none =>
    if 128 < len.toNat then .next (raise .invalidSize s)
    else .next (succeed
      { s with hacc := s.hacc ++ inBytes len.toNat s, hstate := .hAccumulating })

/-- HMAC_FINAL: produce the digest and destroy the context (rule R216). -/
def execHmacFinal (len : Byte) (s : State) : Host.Outcome State Fault Refusal :=
  match hmacLiveError s.hstate with
  | some e => .next (raise e s)
  | none =>
    if len ≠ 0#8 then .next (raise .invalidSize s)
    else
      let digest := hmacDigest Config.hash s.okey s.hacc
      .next (succeed (dropHmacContext .hFinalized (setOut digest.toList s)))

/-- HMAC_WIPE: abandon the HMAC context (rule R217). -/
def execHmacWipe (len : Byte) (s : State) : Host.Outcome State Fault Refusal :=
  if len ≠ 0#8 then .next (raise .invalidSize s)
  else .next (succeed (dropHmacContext .hNone s))

end Sys2Proof.Machine
end

