-- ==== Sys2Proof/Machine/KeyTransport.lean ====
section
/-! DEFINITION. The meanings of KW_ENCODE and KW_DECODE (rules R190 to R192). -/

namespace Sys2Proof.Machine

/-- KW_ENCODE: encode a session key (rule R190). -/
def execKwEncode (method len : Byte) (s : State) : Host.Outcome State Fault Refusal :=
  match methodOf method with
  | none => .next (raise .unsupportedMethod s)
  | some m =>
    if len ≠ 72#8 then .next (raise .invalidSize s)
    else
      let blob := kwEncodeBlob Config.sbox m (kekOperand s) (ukmOperand s) (sessionKeyOperand s)
      .next (succeed (wipeDin (setOut blob.toList s)))

/-- KW_DECODE: decode a blob; a failed verification raises IntegrityError after the computation
(rules R191, R254). -/
def execKwDecode (method len : Byte) (s : State) : Host.Outcome State Fault Refusal :=
  match methodOf method with
  | none => .next (raise .unsupportedMethod s)
  | some m =>
    if len ≠ 81#8 then .next (raise .invalidSize s)
    else
      match kwDecodeBlob Config.sbox m (kekOperand s) (blobOperand s) with
      | none => .next (raiseIntegrity s)
      | some key => .next (succeed (setOut key.toList (wipeDin s)))

end Sys2Proof.Machine
end

