-- ==== Sys2Proof/Machine/System.lean ====
section
/-! DEFINITION. The meanings of IO_WIPE and SOFT_RESET (rules R240, R241). -/

namespace Sys2Proof.Machine

/-- IO_WIPE: zero both buffers (rule R240). -/
def execIoWipe (len : Byte) (s : State) : Host.Outcome State Fault Refusal :=
  if len ≠ 0#8 then .next (raise .invalidSize s)
  else .next (succeed (setOut [] (wipeDin s)))

/-- SOFT_RESET: every element of the core at its reset value (rule R241). -/
def execSoftReset (len : Byte) (s : State) : Host.Outcome State Fault Refusal :=
  if len ≠ 0#8 then .next (raise .invalidSize s)
  else .next (succeed (resetCore s))

end Sys2Proof.Machine
end

