-- ==== Sys2Proof/Machine/Dispatch.lean ====
section
/-! DEFINITION. exec: one arm per command of the opcode table, each one call of its meaning. -/

namespace Sys2Proof.Machine

def exec (i : Instr) (s : State) : Host.Outcome State Fault Refusal :=
  match i with
  | .ctxInit len => Sys2Proof.Machine.execCtxInit len s
  | .ctxWipe len => Sys2Proof.Machine.execCtxWipe len s
  | .blkEnc len => Sys2Proof.Machine.execBlkEnc len s
  | .blkDec len => Sys2Proof.Machine.execBlkDec len s
  | .cfbStart dir len => Sys2Proof.Machine.execCfbStart dir len s
  | .cfbData len => Sys2Proof.Machine.execCfbData len s
  | .cfbEnd len => Sys2Proof.Machine.execCfbEnd len s
  | .kwEncode method len => Sys2Proof.Machine.execKwEncode method len s
  | .kwDecode method len => Sys2Proof.Machine.execKwDecode method len s
  | .hmacInit len => Sys2Proof.Machine.execHmacInit len s
  | .hmacUpdate len => Sys2Proof.Machine.execHmacUpdate len s
  | .hmacFinal len => Sys2Proof.Machine.execHmacFinal len s
  | .hmacWipe len => Sys2Proof.Machine.execHmacWipe len s
  | .ioWipe len => Sys2Proof.Machine.execIoWipe len s
  | .softReset len => Sys2Proof.Machine.execSoftReset len s

end Sys2Proof.Machine
end

