-- ==== Sys2Proof/Machine/HostPort.lean ====
section
/-! DEFINITION. The host port: the register map, the accesses the bus admits, the effect of a read, a
write and a hardware reset (rules R60 to R66, R94, R280). -/

namespace Sys2Proof.Machine

/-- The offset is in a mapped range of the address map (rule R61). -/
def mapped (off : Nat) : Bool := off < 0x00C || (0x080 ≤ off && off < 0x140)

/-- The bus admits the access: 32 bits, aligned, mapped; any other is refused (rules R62, R63). -/
def admitted (off size : Nat) : Bool := size == 4 && off % 4 == 0 && mapped off

/-- The word of four buffer bytes at an index, little-endian (rules R65, R66). -/
def doutWord (s : State) (i : Nat) : Word :=
  le32 #v[s.dout[i]?.getD 0#8, s.dout[i + 1]?.getD 0#8, s.dout[i + 2]?.getD 0#8,
    s.dout[i + 3]?.getD 0#8]

/-- `MemRead(off, 4)` at an admitted offset (rule R65). -/
def memRead (off : Nat) (s : State) : Word :=
  if off = 0x000 then 0#32
  else if off = 0x004 then statusWord s
  else if off = 0x008 then paramWord
  else if off < 0x100 then 0#32
  else doutWord s (off - 0x100)

/-- The four bytes of a word written to `DIN[i..i+3]`, little-endian (rules R64, R66). -/
def dinWrite (i : Nat) (v : Word) (s : State) : State :=
  let b := bytes32le v
  { s with
    din := (((s.din.setIfInBounds i b[0]).setIfInBounds (i + 1) b[1]).setIfInBounds
      (i + 2) b[2]).setIfInBounds (i + 3) b[3] }

/-- `MemWrite(off, 4, v)` at an admitted offset other than CMD: `DIN` takes the word, the read-only
registers ignore it (rule R64). -/
def memWrite (off : Nat) (v : Word) (s : State) : State :=
  if 0x080 ≤ off ∧ off ≤ 0x0FC then dinWrite (off - 0x080) v s else s

/-- `Exec(w)`: the whole effect of writing `w` to CMD (rule R94). -/
def execWord (w : Word) (s : State) : Host.Outcome State Fault Refusal :=
  match decode w with
  | .error _ => .next (raise .illegalCommand s)
  | .ok i => exec i s

/-- One move of the outside world, whole: an admitted read or write with its answer, a refused access
(log entry 4), or a hardware reset between commands (rules R63 to R65, R69, R280). -/
def hostMove (m : HostMove) (s : State) : Host.Outcome State Fault Refusal :=
  match m with
  | .read off size =>
    if admitted off size then .next { s with reply := .data (memRead off s) }
    else .fault .busError
  | .write off size v =>
    if admitted off size then
      if off = 0x000 then execWord v { s with reply := .ack }
      else .next (memWrite off v { s with reply := .ack })
    else .fault .busError
  | .hardReset => .next (resetCore { s with reply := .idle })

end Sys2Proof.Machine
end

