-- ==== Sys2Proof/Machine/Step.lean ====
section
/-! DEFINITION. step: the next move of the host is performed whole; without one the core is quiescent
(rules R69, R70, R264, R286). -/

namespace Sys2Proof.Machine

/-- One step: the first pending host move, in program order (rule R70). With none pending the core is
idle and keeps all its state (rules R264, R286). -/
def step (s : State) : Host.Outcome State Fault Refusal :=
  match s.pending with
  | [] => .next s
  | m :: rest => hostMove m { s with pending := rest }

/-- The host's next move is the write of the command word to CMD: the core fetches nothing, so this
stands for the write that starts the command (rules R34, R38, R72; log entry 5). -/
def State.withFetchWord (s : State) (nbits w : Nat) : State :=
  { s with pending := .write 0x000 4 (BitVec.ofNat 32 (w % 2 ^ nbits)) :: s.pending }

end Sys2Proof.Machine
end

