-- ==== Sys2Proof/Machine/HostProgram.lean ====
section
/-! DEFINITION. Host programs: a command line, the pseudo-instructions LOAD and READ, and the expansions
of the source's software contracts into host moves (rules R100 to R102). Nothing in the machine calls
these; they say what a host puts into `State.pending`. After each command the host is to read STATUS and
go on only when `ERR = 0` (rules R102, R287): that choice is the host's and is not part of a list
(DESIGN CHOICE, safe, log entry 14). -/

namespace Sys2Proof.Machine

/-- A command line: the write of its word to CMD (rules R100, R101). -/
def commandMove (i : Instr) : HostMove := .write 0x000 4 (encode i)

/-- `LOAD <bytes>`: word writes that place the sequence at `DIN[0]` upward, four bytes a word
little-endian, the last word padded with zero bytes (rule R102). -/
def loadMoves (s : Bytes) : List HostMove :=
  (List.range ((s.length + 3) / 4)).map fun i =>
    .write (0x080 + 4 * i) 4
      (le32 #v[s.getD (4 * i) 0, s.getD (4 * i + 1) 0, s.getD (4 * i + 2) 0, s.getD (4 * i + 3) 0])

/-- `READ <n>`: the reads of `DOUT[0..n-1]`, ceil(n/4) words (rule R102). -/
def readMoves (n : Nat) : List HostMove :=
  (List.range ((n + 3) / 4)).map fun i => .read (0x100 + 4 * i) 4

/-- The field `LEN` for a sequence (rule R102). The rule is silent on a length that the field cannot hold;
the high bits are dropped (DESIGN CHOICE, safe, log entry 18). -/
def lenOf (s : Bytes) : Byte := BitVec.ofNat 8 s.length

/-- Bind `key` (rule R102); assumes `C_EMPTY`. -/
def bindKeyMoves (key : Bytes) : List HostMove :=
  loadMoves key ++ [commandMove (.ctxInit (lenOf key))]

/-- `encryptBlock(key, block)` (rule R102); assumes `C_EMPTY`. -/
def encryptBlockMoves (key block : Bytes) : List HostMove :=
  bindKeyMoves key ++ loadMoves block ++ [commandMove (.blkEnc (lenOf block))] ++ readMoves 8 ++
    [commandMove (.ctxWipe 0)]

/-- `decryptBlock(key, block)` (rule R102); assumes `C_EMPTY`. -/
def decryptBlockMoves (key block : Bytes) : List HostMove :=
  bindKeyMoves key ++ loadMoves block ++ [commandMove (.blkDec (lenOf block))] ++ readMoves 8 ++
    [commandMove (.ctxWipe 0)]

/-- A sequence cut into chunks of `size` bytes, the last one shorter when the length asks for it; an empty
sequence has none. `fuel` bounds their number. Rule R102 fixes this cut for a stream alone, with 64 bytes;
for a message of the HMAC engine it is the model's (log entry 17). -/
def chunksOf (size : Nat) : Nat → Bytes → List Bytes
  | 0, _ => []
  | fuel + 1, s => if s = [] then [] else s.take size :: chunksOf size fuel (s.drop size)

/-- One chunk of a CFB stream (rule R102). -/
def cfbChunkMoves (c : Bytes) : List HostMove :=
  loadMoves c ++ [commandMove (.cfbData (lenOf c))] ++ readMoves c.length

/-- `encrypt(key, iv, plaintext)`, and its inverse with the other direction (rule R102); assumes
`C_EMPTY`. The stream closes itself on a last partial segment; otherwise CFB_END closes it. -/
def cfbMoves (dir : Dir) (key iv data : Bytes) : List HostMove :=
  bindKeyMoves key ++ loadMoves iv ++ [commandMove (.cfbStart dir (lenOf iv))] ++
    (chunksOf 64 data.length data).flatMap cfbChunkMoves ++
    (if data.length % 8 = 0 then [commandMove (.cfbEnd 0)] else []) ++ [commandMove (.ctxWipe 0)]

/-- `encode(sessionKey, kek, method)` with the host's `UKM` (rules R102, R181). -/
def kwEncodeMoves (method : Byte) (kek sessionKey ukm : Bytes) : List HostMove :=
  loadMoves (kek ++ sessionKey ++ ukm) ++ [commandMove (.kwEncode method 72)] ++ readMoves 49

/-- `decode(blob, kek, method)` (rule R102), with `LEN = 32 + len(blob)`. The rule is silent on a sum that
the field cannot hold; the high bits are dropped (DESIGN CHOICE, safe, log entry 18). -/
def kwDecodeMoves (method : Byte) (kek blob : Bytes) : List HostMove :=
  loadMoves (kek ++ blob) ++ [commandMove (.kwDecode method (BitVec.ofNat 8 (32 + blob.length)))] ++
    readMoves 32 ++ [commandMove (.ioWipe 0)]

/-- `new(key, H)`; the null key is the empty sequence (rules R102, R220). -/
def hmacNewMoves (key : Bytes) : List HostMove :=
  loadMoves key ++ [commandMove (.hmacInit (lenOf key))]

/-- `update(context, bytes)` for the chunks the host has cut the bytes into, any chunks of at most 128
bytes, empty ones among them (rules R102, R215). -/
def hmacChunksMoves (chunks : List Bytes) : List HostMove :=
  chunks.flatMap fun c => loadMoves c ++ [commandMove (.hmacUpdate (lenOf c))]

/-- `update(context, bytes)` by a host that cuts full chunks of 128 bytes and sends no HMAC_UPDATE for an
empty sequence, so that `HSTATE` then stays. Rule R102 allows any chunks of at most 128 bytes: this cut is
the model's (DESIGN CHOICE, safe, log entry 17). -/
def hmacUpdateMoves (s : Bytes) : List HostMove := hmacChunksMoves (chunksOf 128 s.length s)

/-- `finalize(context)` (rule R102). -/
def hmacFinalMoves : List HostMove := commandMove (.hmacFinal 0) :: readMoves 32

end Sys2Proof.Machine
end

