-- ==== Sys2Proof/Safety.lean ====
section
/-! DEFINITION. The terms in which claims about the machine are stated: the invariants of rule R40, the
error table of rules R93, R251 and R252, the transition tables of rules R24 and R28, the elements a host
can see (rule R41), and a host that loads `DIN` itself. They are written from the rules and not from the
meanings. -/

namespace Sys2Proof.Machine

/-- The invariants that hold after reset and after every command (rule R40); its item 7 speaks of
transients, which this model does not hold between steps. -/
structure CoreInvariants (s : State) : Prop where
  /-- Item 1. -/
  empty_zero : s.cstate = .cEmpty → s.k = zeroWords ∧ s.sr = zeros 8
  /-- Item 2. -/
  keyed_sr_zero : s.cstate = .cKeyed → s.sr = zeros 8
  /-- Item 3. -/
  no_hmac_zero : s.hstate = .hNone ∨ s.hstate = .hFinalized →
    s.ikey = zeros 32 ∧ s.okey = zeros 32 ∧ s.hacc = []
  /-- Item 4. -/
  live_hmac : s.hstate = .hInitialized ∨ s.hstate = .hAccumulating →
    s.hacc.take 32 = s.ikey.toList ∧ xorV s.ikey s.okey = Vector.replicate 32 0x6A#8
  /-- Item 5, the length. -/
  olen_le : s.olen.toNat ≤ 64
  /-- Item 5, the bytes above the length. -/
  dout_zero : ∀ i : Fin 64, s.olen.toNat ≤ i.val → s.dout[i] = 0#8
  /-- Item 6; that `ERR` is one of 0..6 its type says. -/
  err_sticky : s.err ≠ .noError → s.esticky = true

/-- The legal `LEN` values of each command (rule R93). -/
def legalLen : Instr → Bool
  | .ctxInit len => len.toNat == 32
  | .ctxWipe len => len.toNat == 0
  | .blkEnc len => len.toNat == 8
  | .blkDec len => len.toNat == 8
  | .cfbStart _ len => len.toNat == 8
  | .cfbData len => 1 ≤ len.toNat && len.toNat ≤ 64
  | .cfbEnd len => len.toNat == 0
  | .kwEncode _ len => len.toNat == 72
  | .kwDecode _ len => len.toNat == 81
  | .hmacInit len => len.toNat ≤ 128
  | .hmacUpdate len => len.toNat ≤ 128
  | .hmacFinal len => len.toNat == 0
  | .hmacWipe len => len.toNat == 0
  | .ioWipe len => len.toNat == 0
  | .softReset len => len.toNat == 0

/-- The error a command raises for the state of the context it uses (rules R251, R260). -/
def contextError (i : Instr) (c : CState) (h : HState) : Option ErrorKind :=
  match i with
  | .ctxInit _ => if c = .cEmpty then none else some .badState
  | .blkEnc _ | .blkDec _ | .cfbStart _ _ => if c = .cKeyed then none else some .badState
  | .cfbData _ | .cfbEnd _ =>
    if c = .cStreamEnc ∨ c = .cStreamDec then none else some .badState
  | .hmacInit _ => if h = .hNone ∨ h = .hFinalized then none else some .badState
  | .hmacUpdate _ | .hmacFinal _ =>
    if h = .hFinalized then some .useAfterFinalize
    else if h = .hNone then some .badState
    else none
  | .ctxWipe _ | .kwEncode _ _ | .kwDecode _ _ | .hmacWipe _ | .ioWipe _ | .softReset _ => none

/-- The error of an argument outside the closed set of methods (rules R99, R251). -/
def methodError : Instr → Option ErrorKind
  | .kwEncode method _ | .kwDecode method _ =>
    if method.toNat = 1 ∨ method.toNat = 2 then none else some .unsupportedMethod
  | .ctxInit _ | .ctxWipe _ | .blkEnc _ | .blkDec _ | .cfbStart _ _ | .cfbData _ | .cfbEnd _
  | .hmacInit _ | .hmacUpdate _ | .hmacFinal _ | .hmacWipe _ | .ioWipe _ | .softReset _ => none

/-- The pre-check error of a decoded command: the first of context, method and size, in the order of
rule R252. -/
def precheckError (i : Instr) (s : State) : Option ErrorKind :=
  match contextError i s.cstate s.hstate with
  | some e => some e
  | none =>
    match methodError i with
    | some e => some e
    | none => if legalLen i then none else some .invalidSize

/-- The transitions of `CSTATE` by a successful command (rule R24); a command that does not concern
the cipher context keeps the state. -/
def cstateMoves (i : Instr) (c c' : CState) : Prop :=
  match i with
  | .ctxInit _ => c = .cEmpty ∧ c' = .cKeyed
  | .blkEnc _ | .blkDec _ => c = .cKeyed ∧ c' = .cKeyed
  | .cfbStart .enc _ => c = .cKeyed ∧ c' = .cStreamEnc
  | .cfbStart .dec _ => c = .cKeyed ∧ c' = .cStreamDec
  | .cfbData len =>
    (c = .cStreamEnc ∨ c = .cStreamDec) ∧ c' = if len.toNat % 8 = 0 then c else .cKeyed
  | .cfbEnd _ => (c = .cStreamEnc ∨ c = .cStreamDec) ∧ c' = .cKeyed
  | .ctxWipe _ | .softReset _ => c' = .cEmpty
  | .kwEncode _ _ | .kwDecode _ _ | .hmacInit _ | .hmacUpdate _ | .hmacFinal _ | .hmacWipe _
  | .ioWipe _ => c' = c

/-- The transitions of `HSTATE` by a successful command (rule R28). -/
def hstateMoves (i : Instr) (h h' : HState) : Prop :=
  match i with
  | .hmacInit _ => (h = .hNone ∨ h = .hFinalized) ∧ h' = .hInitialized
  | .hmacUpdate _ => (h = .hInitialized ∨ h = .hAccumulating) ∧ h' = .hAccumulating
  | .hmacFinal _ => (h = .hInitialized ∨ h = .hAccumulating) ∧ h' = .hFinalized
  | .hmacWipe _ | .softReset _ => h' = .hNone
  | .ctxInit _ | .ctxWipe _ | .blkEnc _ | .blkDec _ | .cfbStart _ _ | .cfbData _ | .cfbEnd _
  | .kwEncode _ _ | .kwDecode _ _ | .ioWipe _ => h' = h

/-- The two states agree on every element a host read can show: the results in `DOUT`, `OLEN`, and the
fields of STATUS (rule R41). -/
structure HostSees (s t : State) : Prop where
  dout : s.dout = t.dout
  olen : s.olen = t.olen
  err : s.err = t.err
  esticky : s.esticky = t.esticky
  cstate : s.cstate = t.cstate
  hstate : s.hstate = t.hstate

/-- The cipher context is the same in both states (rule R20). -/
structure SameCipherContext (s t : State) : Prop where
  k : s.k = t.k
  sr : s.sr = t.sr
  cstate : s.cstate = t.cstate

/-- The HMAC context is the same in both states (rule R20). -/
structure SameHmacContext (s t : State) : Prop where
  ikey : s.ikey = t.ikey
  okey : s.okey = t.okey
  hacc : s.hacc = t.hacc
  hstate : s.hstate = t.hstate

/-- `DIN` holding a sequence from `DIN[0]` upward, as a host leaves it after a LOAD into zeroed `DIN`
(rule R102); sequences are at most 128 bytes. -/
def withDin (data : Bytes) (s : State) : State := { s with din := ofBytes 128 data }

/-- A run of `n` steps of the core, as the host runs it (rule R286); it stops at a fault or a refusal. -/
def runSteps (n : Nat) (s : State) : Host.Outcome State Fault Refusal := Sys2Proof.core.run n s

/-- A host that feeds chunks to the HMAC context one after another, each loaded and then absorbed by
HMAC_UPDATE (rules R102, R215); it stops at a fault or a refusal. -/
def feedHmac : List Bytes → State → Host.Outcome State Fault Refusal
  | [], s => .next s
  | c :: rest, s =>
    match exec (.hmacUpdate (lenOf c)) (withDin c s) with
    | .next t => feedHmac rest t
    | .fault f => .fault f
    | .refused r => .refused r

end Sys2Proof.Machine
end

