-- ==== Sys2Proof/Certificates/Slice0/Obligations.lean ====
section
/-! DEFINITION. The statements for the provers. Next states are written out field by field, so that what
a command leaves unchanged is part of its statement. -/

open Sys2Proof Sys2Proof.Machine

/-! ### Command words -/

/-- The encoder's word decodes to the command, with every operand at every value (rules R94, R101). -/
def Obligations.DecodeEncodeRoundTrip : Prop :=
  ∀ i : Instr, decode (encode i) = .ok i

/-- Rule R101: the word is the sum of its fields, `DIR` and `METHOD` travel in `ARG`, and the rule's
example words are those of the encoder. -/
def Obligations.EncodeIsTheSumOfFields : Prop :=
  (∀ i : Instr,
    (encode i).toNat = i.opcode.toNat + 2 ^ 8 * i.arg.toNat + 2 ^ 16 * i.len.toNat) ∧
  (∀ len : Byte, (Instr.cfbStart .enc len).arg = 0#8 ∧ (Instr.cfbStart .dec len).arg = 1#8) ∧
  (∀ n len : Byte, (Instr.kwEncode n len).arg = n ∧ (Instr.kwDecode n len).arg = n) ∧
  [encode (.ctxInit 32), encode (.blkEnc 8), encode (.blkDec 8), encode (.cfbStart .enc 8),
   encode (.cfbStart .dec 8), encode (.cfbData 13), encode (.cfbEnd 0), encode (.kwEncode 2 72),
   encode (.kwDecode 1 81), encode (.hmacInit 0), encode (.hmacUpdate 128), encode (.hmacFinal 0),
   encode (.hmacWipe 0), encode (.ctxWipe 0), encode (.ioWipe 0), encode (.softReset 0)] =
  [0x00200001#32, 0x00080010#32, 0x00080011#32, 0x00080020#32, 0x00080120#32, 0x000D0021#32,
   0x00000022#32, 0x00480230#32, 0x00510131#32, 0x00000040#32, 0x00800041#32, 0x00000042#32,
   0x00000043#32, 0x00000002#32, 0x00000050#32, 0x0000007F#32]

/-- No two words decode to one command: a decoded word is the encoder's word for its command. -/
def Obligations.DecodedWordReencodes : Prop :=
  ∀ (w : Word) (i : Instr), decode w = .ok i → encode i = w

/-- Rule R95: a word selects the command of a row exactly when it fits the row by match and mask, and no
word fits two rows. -/
def Obligations.WordSelectsRowByMatchAndMask : Prop :=
  (∀ (w : Word) (r : OpcodeRow), r ∈ opcodeTable →
    ((∃ i, decode w = .ok i ∧ i.mnemonic = r.mnemonic) ↔ w &&& r.mask = r.pattern)) ∧
  (∀ (w : Word) (r r' : OpcodeRow), r ∈ opcodeTable → r' ∈ opcodeTable →
    w &&& r.mask = r.pattern → w &&& r'.mask = r'.pattern → r = r') ∧
  (∀ (w : Word) (i : Instr), decode w = .ok i → ∃ r ∈ opcodeTable, i.mnemonic = r.mnemonic)

/-- Rule R97: the illegal words, by its four conditions, fail with IllegalCommand and change only `ERR`
and `ESTICKY`; every other word selects a command. -/
def Obligations.IllegalWordRaisesIllegalCommand : Prop :=
  ∀ (opc arg len rsv : Byte) (s : State),
    let w : Word := rsv ++ len ++ arg ++ opc
    let noArg : List Byte :=
      [0x01, 0x02, 0x10, 0x11, 0x21, 0x22, 0x40, 0x41, 0x42, 0x43, 0x50, 0x7F]
    let illegal : Prop :=
      rsv ≠ 0#8 ∨ opc ∉ noArg ++ [0x20#8, 0x30#8, 0x31#8] ∨ (opc ∈ noArg ∧ arg ≠ 0#8) ∨
        (opc = 0x20#8 ∧ 1 < arg.toNat)
    (illegal → execWord w s = .next { s with err := .error .illegalCommand, esticky := true }) ∧
    (¬ illegal → ∃ i, decode w = .ok i ∧ execWord w s = exec i s)

/-- A sanity check of the decoder on words written out by the spec (group T12): eight legal words and
ten illegal ones. The names of the four causes are the model's (log entry 8). -/
def Obligations.SpecSampleWordsDecode : Prop :=
  decode 0x00200001 = .ok (.ctxInit 32) ∧ decode 0x00080120 = .ok (.cfbStart .dec 8) ∧
  decode 0x000D0021 = .ok (.cfbData 13) ∧ decode 0x00480230 = .ok (.kwEncode 2 72) ∧
  decode 0x00510131 = .ok (.kwDecode 1 81) ∧ decode 0x00FF0330 = .ok (.kwEncode 3 255) ∧
  decode 0x00810041 = .ok (.hmacUpdate 129) ∧ decode 0x0000007F = .ok (.softReset 0) ∧
  decode 0x00000000 = .error .unassignedOpcode ∧ decode 0xFFFFFFFF = .error .reservedBits ∧
  decode 0x01080010 = .error .reservedBits ∧ decode 0x00080110 = .error .argNotZero ∧
  decode 0x00080220 = .error .dirOutOfRange ∧ decode 0x00000003 = .error .unassignedOpcode ∧
  decode 0x00000012 = .error .unassignedOpcode ∧ decode 0x00000044 = .error .unassignedOpcode ∧
  decode 0x0000007E = .error .unassignedOpcode ∧ decode 0x00000080 = .error .unassignedOpcode

/-! ### Steps and the host port -/

/-- A step whose next host move writes a word to CMD runs the command the word decodes to, with the rest
of the moves left pending and the write acknowledged; an illegal word raises IllegalCommand. The pending
moves and the bus's answer are the model's own fields (log entry 3). -/
def Obligations.StepRunsTheDecodedCommand : Prop :=
  ∀ (s : State) (w : Word) (rest : List HostMove), s.pending = .write 0x000 4 w :: rest →
    (∀ i, decode w = .ok i → step s = exec i { s with pending := rest, reply := .ack }) ∧
    (∀ c, decode w = .error c → step s = .next { s with
      pending := rest, reply := .ack, err := .error .illegalCommand, esticky := true })

/-- With no host move pending the core keeps all its state (rules R264, R286); that this is a step is
the model's choice (log entry 3). -/
def Obligations.IdleStepKeepsState : Prop :=
  ∀ s : State, s.pending = [] → step s = .next s

/-- An access that is misaligned, of a width other than 32 bits, or to an unmapped offset is refused:
there is no next state (rules R62, R63). That the refusal is the fault `busError` is the model's choice
(log entry 4). -/
def Obligations.RefusedAccessFaults : Prop :=
  ∀ (s : State) (off size : Nat) (v : Word) (rest : List HostMove),
    (size ≠ 4 ∨ off % 4 ≠ 0 ∨ (0x00C ≤ off ∧ off < 0x080) ∨ 0x140 ≤ off) →
    (s.pending = .read off size :: rest → step s = .fault .busError) ∧
    (s.pending = .write off size v :: rest → step s = .fault .busError)

/-- Rule R65: what a read of each mapped register returns; nothing of the core changes. The pending moves
and the bus's answer are the model's own fields (log entry 3). -/
def Obligations.ReadReturnsTheRegister : Prop :=
  ∀ (s : State) (off : Nat) (rest : List HostMove), s.pending = .read off 4 :: rest → off % 4 = 0 →
    (off = 0x000 → step s = .next { s with pending := rest, reply := .data 0 }) ∧
    (off = 0x004 → step s = .next { s with pending := rest, reply := .data (statusWord s) }) ∧
    (off = 0x008 → step s = .next { s with pending := rest, reply := .data 0x20202008 }) ∧
    (0x080 ≤ off → off ≤ 0x0FC → step s = .next { s with pending := rest, reply := .data 0 }) ∧
    (0x100 ≤ off → ∀ h : off ≤ 0x13C, ∃ w : Word,
      step s = .next { s with pending := rest, reply := .data w } ∧
      w.toNat = (s.dout[off - 0x100]'(by omega)).toNat +
        2 ^ 8 * (s.dout[off - 0x100 + 1]'(by omega)).toNat +
        2 ^ 16 * (s.dout[off - 0x100 + 2]'(by omega)).toNat +
        2 ^ 24 * (s.dout[off - 0x100 + 3]'(by omega)).toNat)

/-- Rule R64: a write to CMD executes its word; a word write to `DIN` stores its four bytes
little-endian and leaves every other byte; a write to a read-only register changes nothing. The pending
moves and the bus's answer are the model's own fields (log entry 3). -/
def Obligations.WriteReachesTheRegister : Prop :=
  ∀ (s : State) (off : Nat) (v : Word) (rest : List HostMove),
    s.pending = .write off 4 v :: rest → off % 4 = 0 →
    let s' : State := { s with pending := rest, reply := .ack }
    (off = 0x000 → step s = execWord v s') ∧
    (0x080 ≤ off → off ≤ 0x0FC → ∃ din : Vector Byte 128, step s = .next { s' with din := din } ∧
      ∀ j : Fin 128, din[j] =
        if j.val + 0x080 = off then v.extractLsb' 0 8
        else if j.val + 0x080 = off + 1 then v.extractLsb' 8 8
        else if j.val + 0x080 = off + 2 then v.extractLsb' 16 8
        else if j.val + 0x080 = off + 3 then v.extractLsb' 24 8
        else s.din[j]) ∧
    (off = 0x004 ∨ off = 0x008 ∨ (0x100 ≤ off ∧ off ≤ 0x13C) → step s = .next s')

/-- Two `DIN` writes to different offsets commute, and writing the same word twice leaves the state one
write leaves (rules R68, R70 (c)). -/
def Obligations.DinWritesCommuteAndAreIdempotent : Prop :=
  ∀ (s : State) (i j : Nat) (v w : Word), i % 4 = 0 → j % 4 = 0 →
    (i ≠ j → dinWrite i v (dinWrite j w s) = dinWrite j w (dinWrite i v s)) ∧
    dinWrite i v (dinWrite i v s) = dinWrite i v s

/-- The `WR` lines of a LOAD, run as so many steps, leave the sequence in `DIN` from `DIN[0]` upward with the
last word padded with zero bytes, and leave every other byte of `DIN` and every other element of the core
(rules R64, R66, R102). That moves are taken one a step from `pending` is the model's choice
(log entry 3). -/
def Obligations.LoadPlacesTheBytes : Prop :=
  ∀ (s : State) (data : Bytes) (rest : List HostMove), data ≠ [] → data.length ≤ 128 →
    s.pending = loadMoves data ++ rest →
    ∃ din : Vector Byte 128,
      runSteps ((data.length + 3) / 4) s =
        .next { s with din := din, pending := rest, reply := .ack } ∧
      ∀ j : Fin 128, din[j] =
        if j.val < data.length then data.getD j.val 0#8
        else if j.val < 4 * ((data.length + 3) / 4) then 0#8
        else s.din[j]

/-- Rule R35: each field of the word a read of STATUS returns, and zero in the bits of no field; and the
codes of `ERR` (rule R250), `CSTATE` (rule R23) and `HSTATE` (rule R27). -/
def Obligations.StatusWordHoldsItsFields : Prop :=
  ∀ s : State,
    (statusWord s).extractLsb' 0 4 = errBits s.err ∧
    (statusWord s).getLsbD 4 = s.esticky ∧
    (statusWord s).extractLsb' 5 3 = 0 ∧
    (statusWord s).extractLsb' 8 2 = cstateBits s.cstate ∧
    (statusWord s).extractLsb' 10 2 = 0 ∧
    (statusWord s).extractLsb' 12 2 = hstateBits s.hstate ∧
    (statusWord s).extractLsb' 14 2 = 0 ∧
    (statusWord s).extractLsb' 16 8 = s.olen ∧
    (statusWord s).extractLsb' 24 8 = 0 ∧
    (errBits .noError = 0 ∧ errBits (.error .invalidSize) = 1 ∧
      errBits (.error .unsupportedMethod) = 2 ∧ errBits (.error .integrityError) = 3 ∧
      errBits (.error .useAfterFinalize) = 4 ∧ errBits (.error .badState) = 5 ∧
      errBits (.error .illegalCommand) = 6) ∧
    (cstateBits .cEmpty = 0 ∧ cstateBits .cKeyed = 1 ∧ cstateBits .cStreamEnc = 2 ∧
      cstateBits .cStreamDec = 3) ∧
    (hstateBits .hNone = 0 ∧ hstateBits .hInitialized = 1 ∧ hstateBits .hAccumulating = 2 ∧
      hstateBits .hFinalized = 3)

/-- Rule R41: states that agree on `DOUT`, `OLEN` and the fields of STATUS answer every host read with
the same word, whatever their keys, registers, accumulators and operand buffer hold. That the answer
stands in `reply` is the model's choice (log entry 3), and so is the fault of a refused read (log
entry 4). -/
def Obligations.ReadsRevealOnlyResultsAndStatus : Prop :=
  ∀ (s t : State) (off size : Nat) (ps pt : List HostMove), HostSees s t →
    s.pending = .read off size :: ps → t.pending = .read off size :: pt →
    (∃ r, step s = .next { s with pending := ps, reply := r } ∧
          step t = .next { t with pending := pt, reply := r }) ∨
    (step s = .fault .busError ∧ step t = .fault .busError)

/-! ### Reset and invariants -/

/-- Rule R42: every element after a hardware reset and after a successful SOFT_RESET, and STATUS and
PARAM as read. The table's line of transients has no element here (log entry 7). -/
def Obligations.ResetGivesTheResetValues : Prop :=
  let isReset (t : State) : Prop :=
    (∀ i : Fin 8, t.k[i] = 0#32) ∧ t.sr = zeros 8 ∧ t.cstate = .cEmpty ∧
    t.ikey = zeros 32 ∧ t.okey = zeros 32 ∧ t.hacc = [] ∧ t.hstate = .hNone ∧
    t.din = zeros 128 ∧ t.dout = zeros 64 ∧ t.olen = 0#8 ∧ t.err = .noError ∧ t.esticky = false ∧
    statusWord t = 0x00000000 ∧ memRead 0x008 t = 0x20202008
  isReset State.reset ∧
  (∀ (s : State) (rest : List HostMove), s.pending = .hardReset :: rest →
    ∃ t, step s = .next t ∧ isReset t ∧ t.pending = rest) ∧
  (∀ s : State, ∃ t, exec (.softReset 0) s = .next t ∧ isReset t ∧ t.pending = s.pending)

/-- The invariants of rule R40, items 1 to 6, hold of the reset state. -/
def Obligations.InvariantsHoldAtReset : Prop := CoreInvariants State.reset

/-- The invariants of rule R40, items 1 to 6, are kept by every step from every state that has them. -/
def Obligations.EveryStepKeepsTheInvariants : Prop :=
  ∀ s t : State, CoreInvariants s → step s = .next t → CoreInvariants t

/-! ### Errors -/

/-- Rules R252 and R253: an illegal word, or else the first pre-check that fails in the order context,
method, size, is reported, and nothing but `ERR` and `ESTICKY` changes; IntegrityError comes only after
every pre-check has passed. -/
def Obligations.PrecheckErrorsChangeOnlyStatus : Prop :=
  (∀ (w : Word) (c : IllegalCause) (s : State), decode w = .error c →
    execWord w s = .next { s with err := .error .illegalCommand, esticky := true }) ∧
  (∀ (i : Instr) (s : State) (e : ErrorKind), precheckError i s = some e →
    exec i s = .next { s with err := .error e, esticky := true }) ∧
  (∀ (i : Instr) (s t : State), exec i s = .next t → t.err = .error .integrityError →
    precheckError i s = none)

/-- A command whose pre-checks all pass ends with `ERR = 0`, or is a KW_DECODE that fails its
verification (rules R94, R251, R252). `ESTICKY` is then as before, but for SOFT_RESET, which clears it,
and the failing KW_DECODE, which sets it (rule R33). -/
def Obligations.CommandsPastTheirPrechecksSucceed : Prop :=
  ∀ (i : Instr) (s : State), precheckError i s = none →
    ∃ t, exec i s = .next t ∧
      ((t.err = .noError ∧
        t.esticky = (match i with | .softReset _ => false | _ => s.esticky)) ∨
       (∃ method len, i = .kwDecode method len) ∧ t.err = .error .integrityError ∧
        t.esticky = true)

/-- Every word written to CMD completes: it never faults and is never refused (rules R69, R94, R288). -/
def Obligations.EveryCommandWordCompletes : Prop :=
  ∀ (w : Word) (s : State), ∃ t, execWord w s = .next t

/-- Rule R33: every command that ends with `ERR` not 0 sets `ESTICKY`, and a step clears it only if it is
a hardware reset or a SOFT_RESET that passes its size check. Steps take their move from `pending`, the
model's own field (log entry 3). -/
def Obligations.StickyErrorIsClearedOnlyByReset : Prop :=
  (∀ (w : Word) (s t : State), execWord w s = .next t → t.err ≠ .noError → t.esticky = true) ∧
  (∀ s t : State, s.esticky = true → step s = .next t → t.esticky = false →
    ∃ rest, s.pending = .hardReset :: rest ∨ s.pending = .write 0x000 4 (encode (.softReset 0)) :: rest)

/-! ### Whole-machine rules -/

/-- Rule R24: a successful command moves `CSTATE` by a row of the table and by no other way; a failing
command leaves it. -/
def Obligations.CipherContextFollowsItsTable : Prop :=
  ∀ (i : Instr) (s t : State), exec i s = .next t →
    (t.err = .noError → cstateMoves i s.cstate t.cstate) ∧
    (t.err ≠ .noError → t.cstate = s.cstate)

/-- Rule R28: a successful command moves `HSTATE` by a row of the table and by no other way; a failing
command leaves it. -/
def Obligations.HmacContextFollowsItsTable : Prop :=
  ∀ (i : Instr) (s t : State), exec i s = .next t →
    (t.err = .noError → hstateMoves i s.hstate t.hstate) ∧
    (t.err ≠ .noError → t.hstate = s.hstate)

/-- While a key is bound, a step keeps it, unless it is a hardware reset or a CTX_WIPE or SOFT_RESET
command (rule R21). -/
def Obligations.BoundKeyIsImmutable : Prop :=
  ∀ s t : State, s.cstate ≠ .cEmpty → step s = .next t → t.k ≠ s.k →
    ∃ rest, s.pending = .hardReset :: rest ∨
      ∃ w, s.pending = .write 0x000 4 w :: rest ∧
        ((∃ len, decode w = .ok (.ctxWipe len)) ∨ ∃ len, decode w = .ok (.softReset len))

/-- `DIN` across commands (rules R29, R192): a command that takes raw keys wipes it once it is past its
pre-checks, so do IO_WIPE and SOFT_RESET, and every other command, and every command that fails a
pre-check, leaves it. -/
def Obligations.KeyBearingCommandsWipeDin : Prop :=
  ∀ (i : Instr) (s t : State), exec i s = .next t →
    let wipes : Bool := match i with
      | .ctxInit _ | .kwEncode _ _ | .kwDecode _ _ | .hmacInit _ | .ioWipe _ | .softReset _ => true
      | _ => false
    (wipes = true ∧ precheckError i s = none → t.din = zeros 128) ∧
    (¬ (wipes = true ∧ precheckError i s = none) → t.din = s.din)

/-- `DOUT` and `OLEN` across commands (rules R30, R31): a successful command that produces no data, and a
command that fails a pre-check, leaves both; a successful BLK_ENC, BLK_DEC, CFB_DATA, KW_ENCODE,
KW_DECODE or HMAC_FINAL sets the length of its result, and IO_WIPE, SOFT_RESET and a failed verification
set 0 with `DOUT` all zero. -/
def Obligations.ResultBufferHoldsTheLatestResult : Prop :=
  ∀ (i : Instr) (s t : State), exec i s = .next t →
    let produces : Option Nat := match i with
      | .blkEnc _ | .blkDec _ => some 8
      | .cfbData len => some len.toNat
      | .kwEncode _ _ => some 49
      | .kwDecode _ _ | .hmacFinal _ => some 32
      | .ioWipe _ | .softReset _ => some 0
      | _ => none
    (precheckError i s ≠ none ∨ produces = none → t.dout = s.dout ∧ t.olen = s.olen) ∧
    (∀ n, precheckError i s = none → produces = some n → t.err = .noError →
      t.olen.toNat = n ∧ ∀ j : Fin 64, n ≤ j.val → t.dout[j] = 0#8) ∧
    (t.err = .error .integrityError → t.olen = 0#8 ∧ t.dout = zeros 64)

/-! ### Cipher core -/

/-- Rule R131: decryption inverts encryption and encryption inverts decryption, for every S-box table,
and encryption is a bijection on blocks. -/
def Obligations.DecryptionInvertsEncryption : Prop :=
  ∀ (sbox : SBox) (key : Key),
    (∀ b : Block, dec sbox key (enc sbox key b) = b) ∧
    (∀ b : Block, enc sbox key (dec sbox key b) = b) ∧
    Function.Bijective (enc sbox key)

/-- The key schedule: the eight little-endian words of a key (rule R123), the subkey index of each round,
written out, and the reversal (rules R124, R125); and rounds 1 to 31 and the last round of `Enc` and `Dec`
take those subkeys in order (rules R129, R130). -/
def Obligations.SubkeyOrders : Prop :=
  (List.range 32).map (fun r => (ksel (r + 1)).val) =
    [0, 1, 2, 3, 4, 5, 6, 7, 0, 1, 2, 3, 4, 5, 6, 7, 0, 1, 2, 3, 4, 5, 6, 7, 7, 6, 5, 4, 3, 2, 1, 0] ∧
  (List.range 32).map (fun r => (dsel (r + 1)).val) =
    [0, 1, 2, 3, 4, 5, 6, 7, 7, 6, 5, 4, 3, 2, 1, 0, 7, 6, 5, 4, 3, 2, 1, 0, 7, 6, 5, 4, 3, 2, 1, 0] ∧
  (∀ r : Fin 32, dsel (r.val + 1) = ksel (33 - (r.val + 1))) ∧
  (∀ (key : Key) (i : Fin 8), (keyWords key)[i].toNat =
    key[4 * i.val].toNat + 2 ^ 8 * key[4 * i.val + 1].toNat + 2 ^ 16 * key[4 * i.val + 2].toNat +
      2 ^ 24 * key[4 * i.val + 3].toNat) ∧
  (∀ (sbox : SBox) (k : Subkeys) (b : Block),
    encWords sbox k b = ofHalves (lastRound sbox k[ksel 32]
      ((List.range 31).foldl (fun x r => feistelRound sbox k[ksel (r + 1)] x) (toHalves b))) ∧
    decWords sbox k b = ofHalves (lastRound sbox k[dsel 32]
      ((List.range 31).foldl (fun x r => feistelRound sbox k[dsel (r + 1)] x) (toHalves b)))) ∧
  ∀ (sbox : SBox) (key : Key) (b : Block),
    enc sbox key b = encWords sbox (keyWords key) b ∧ dec sbox key b = decWords sbox (keyWords key) b

/-- Rules R121 and R122: each nibble goes through its own table, and the round function rotates the
substituted sum left by 11: bit `j` of the substitution becomes bit `(j + 11) mod 32`. Rules R127 and R128:
a round puts the function of `N1` into `N2` and swaps, the last round does not swap. Rule R126: the halves
are bytes 0 to 3 and 4 to 7 of the block, little-endian, both ways. -/
def Obligations.RoundFunctionSubstitutesThenRotates : Prop :=
  ∀ (sbox : SBox) (n k : Word),
    (∀ i : Fin 8, (sub sbox (n + k)).extractLsb' (4 * i.val) 4 =
      sbox i ((n + k).extractLsb' (4 * i.val) 4)) ∧
    (∀ j : Fin 32, (roundF sbox n k).getLsbD ((j.val + 11) % 32) =
      (sub sbox (n + k)).getLsbD j.val) ∧
    (∀ n1 n2 : Word,
      feistelRound sbox k (n1, n2) = (n2 ^^^ roundF sbox n1 k, n1) ∧
      lastRound sbox k (n1, n2) = (n1, n2 ^^^ roundF sbox n1 k)) ∧
    (∀ b : Block,
      (toHalves b).1.toNat =
        b[0].toNat + 2 ^ 8 * b[1].toNat + 2 ^ 16 * b[2].toNat + 2 ^ 24 * b[3].toNat ∧
      (toHalves b).2.toNat =
        b[4].toNat + 2 ^ 8 * b[5].toNat + 2 ^ 16 * b[6].toNat + 2 ^ 24 * b[7].toNat) ∧
    (∀ (x : Halves) (i : Fin 4),
      (ofHalves x)[i.val] = x.1.extractLsb' (8 * i.val) 8 ∧
      (ofHalves x)[i.val + 4] = x.2.extractLsb' (8 * i.val) 8)

/-- Rule R134: CTX_INIT. -/
def Obligations.CtxInitBindsTheKey : Prop :=
  (∀ len : Byte, decode (0#8 ++ len ++ 0x00#8 ++ 0x01#8) = .ok (.ctxInit len)) ∧
  ∀ (len : Byte) (s : State),
    (s.cstate ≠ .cEmpty →
      exec (.ctxInit len) s = .next { s with err := .error .badState, esticky := true }) ∧
    (s.cstate = .cEmpty → len.toNat ≠ 32 →
      exec (.ctxInit len) s = .next { s with err := .error .invalidSize, esticky := true }) ∧
    (s.cstate = .cEmpty → len.toNat = 32 →
      exec (.ctxInit len) s = .next { s with
        k := Vector.ofFn fun i : Fin 8 =>
          le32 #v[s.din[4 * i.val], s.din[4 * i.val + 1], s.din[4 * i.val + 2], s.din[4 * i.val + 3]]
        sr := zeros 8
        cstate := .cKeyed
        din := zeros 128
        err := .noError })

/-- Rule R135: CTX_WIPE. -/
def Obligations.CtxWipeDestroysTheContext : Prop :=
  (∀ len : Byte, decode (0#8 ++ len ++ 0x00#8 ++ 0x02#8) = .ok (.ctxWipe len)) ∧
  ∀ (len : Byte) (s : State),
    (len.toNat ≠ 0 →
      exec (.ctxWipe len) s = .next { s with err := .error .invalidSize, esticky := true }) ∧
    (len.toNat = 0 →
      exec (.ctxWipe len) s = .next { s with
        k := zeroWords, sr := zeros 8, cstate := .cEmpty, err := .noError })

/-- Rule R136: BLK_ENC. -/
def Obligations.BlkEncEncryptsTheBlock : Prop :=
  (∀ len : Byte, decode (0#8 ++ len ++ 0x00#8 ++ 0x10#8) = .ok (.blkEnc len)) ∧
  ∀ (len : Byte) (s : State),
    (s.cstate ≠ .cKeyed →
      exec (.blkEnc len) s = .next { s with err := .error .badState, esticky := true }) ∧
    (s.cstate = .cKeyed → len.toNat ≠ 8 →
      exec (.blkEnc len) s = .next { s with err := .error .invalidSize, esticky := true }) ∧
    (s.cstate = .cKeyed → len.toNat = 8 →
      exec (.blkEnc len) s = .next { s with
        dout := ofBytes 64 (encWords Config.sbox s.k (ofBytes 8 (s.din.toList.take 8))).toList
        olen := 8#8
        err := .noError })

/-- Rule R137: BLK_DEC. -/
def Obligations.BlkDecDecryptsTheBlock : Prop :=
  (∀ len : Byte, decode (0#8 ++ len ++ 0x00#8 ++ 0x11#8) = .ok (.blkDec len)) ∧
  ∀ (len : Byte) (s : State),
    (s.cstate ≠ .cKeyed →
      exec (.blkDec len) s = .next { s with err := .error .badState, esticky := true }) ∧
    (s.cstate = .cKeyed → len.toNat ≠ 8 →
      exec (.blkDec len) s = .next { s with err := .error .invalidSize, esticky := true }) ∧
    (s.cstate = .cKeyed → len.toNat = 8 →
      exec (.blkDec len) s = .next { s with
        dout := ofBytes 64 (decWords Config.sbox s.k (ofBytes 8 (s.din.toList.take 8))).toList
        olen := 8#8
        err := .noError })

/-- BLK_DEC of the block that BLK_ENC left in `DOUT`, brought back to `DIN` under the same bound key,
gives the first block back; and so the other way round (rules R131, R136, R137). -/
def Obligations.BlkDecUndoesBlkEnc : Prop :=
  ∀ s : State, s.cstate = .cKeyed →
    (∃ t u, exec (.blkEnc 8) s = .next t ∧
      exec (.blkDec 8) (withDin (t.dout.toList.take 8) t) = .next u ∧
      u.dout.toList.take 8 = s.din.toList.take 8) ∧
    (∃ t u, exec (.blkDec 8) s = .next t ∧
      exec (.blkEnc 8) (withDin (t.dout.toList.take 8) t) = .next u ∧
      u.dout.toList.take 8 = s.din.toList.take 8)

/-! ### CFB mode -/

/-- Rule R164 (a): decryption of a stream inverts its encryption, for every S-box table, key, IV and
length. -/
def Obligations.CfbDecryptionInvertsEncryption : Prop :=
  ∀ (sbox : SBox) (key : Key) (iv : Block) (m : Bytes),
    cfbDec sbox key iv (cfbEnc sbox key iv m) = m

/-- Rule R164 (b): a run over a first part of full segments and then the rest is the run over the
whole. -/
def Obligations.CfbRunsInChunks : Prop :=
  ∀ (sbox : SBox) (dir : Dir) (k : Subkeys) (sr : Block) (a b : Bytes), a.length % 8 = 0 →
    cfbRun sbox dir k sr (a ++ b) =
      ((cfbRun sbox dir k sr a).1 ++ (cfbRun sbox dir k (cfbRun sbox dir k sr a).2 b).1,
       (cfbRun sbox dir k (cfbRun sbox dir k sr a).2 b).2)

/-- Rules R160 to R164: the output is as long as the input; the first full segment is the input
exclusive-or the encrypted register, and an input shorter than a segment takes the first bytes of the
encrypted register, in both directions; one full segment leaves its ciphertext in the register, which is
the output when encrypting and the input when decrypting; a run that ends in a partial segment leaves the
register zero; and `CfbEnc` and `CfbDec` are the outputs of the two directions. -/
def Obligations.CfbRunSegments : Prop :=
  ∀ (sbox : SBox) (dir : Dir) (k : Subkeys) (sr : Block) (m : Bytes),
    (cfbRun sbox dir k sr m).1.length = m.length ∧
    (8 ≤ m.length → (cfbRun sbox dir k sr m).1.take 8 =
      List.zipWith (· ^^^ ·) (m.take 8) (encWords sbox k sr).toList) ∧
    (m.length < 8 → (cfbRun sbox dir k sr m).1 =
      List.zipWith (· ^^^ ·) m ((encWords sbox k sr).toList.take m.length)) ∧
    (m.length = 8 → (cfbRun sbox .enc k sr m).2.toList = (cfbRun sbox .enc k sr m).1) ∧
    (m.length = 8 → (cfbRun sbox .dec k sr m).2.toList = m) ∧
    (m.length % 8 ≠ 0 → (cfbRun sbox dir k sr m).2 = zeros 8) ∧
    (∀ key : Key, cfbEnc sbox key sr m = (cfbRun sbox .enc (keyWords key) sr m).1 ∧
      cfbDec sbox key sr m = (cfbRun sbox .dec (keyWords key) sr m).1)

/-- Rule R166: CFB_START. -/
def Obligations.CfbStartOpensTheStream : Prop :=
  (∀ len : Byte, decode (0#8 ++ len ++ 0x00#8 ++ 0x20#8) = .ok (.cfbStart .enc len) ∧
    decode (0#8 ++ len ++ 0x01#8 ++ 0x20#8) = .ok (.cfbStart .dec len)) ∧
  ∀ (dir : Dir) (len : Byte) (s : State),
    (s.cstate ≠ .cKeyed →
      exec (.cfbStart dir len) s = .next { s with err := .error .badState, esticky := true }) ∧
    (s.cstate = .cKeyed → len.toNat ≠ 8 →
      exec (.cfbStart dir len) s = .next { s with err := .error .invalidSize, esticky := true }) ∧
    (s.cstate = .cKeyed → len.toNat = 8 →
      exec (.cfbStart dir len) s = .next { s with
        sr := ofBytes 8 (s.din.toList.take 8)
        cstate := match dir with
          | .enc => .cStreamEnc
          | .dec => .cStreamDec
        err := .noError })

/-- Rule R167: CFB_DATA. -/
def Obligations.CfbDataTransformsTheStream : Prop :=
  (∀ len : Byte, decode (0#8 ++ len ++ 0x00#8 ++ 0x21#8) = .ok (.cfbData len)) ∧
  ∀ (len : Byte) (s : State) (dir : Dir),
    let r := cfbRun Config.sbox dir s.k s.sr (s.din.toList.take len.toNat)
    let streaming : Prop := (s.cstate = .cStreamEnc ∧ dir = .enc) ∨ (s.cstate = .cStreamDec ∧ dir = .dec)
    (s.cstate = .cEmpty ∨ s.cstate = .cKeyed →
      exec (.cfbData len) s = .next { s with err := .error .badState, esticky := true }) ∧
    (streaming → len.toNat = 0 ∨ 64 < len.toNat →
      exec (.cfbData len) s = .next { s with err := .error .invalidSize, esticky := true }) ∧
    (streaming → 1 ≤ len.toNat → len.toNat ≤ 64 → len.toNat % 8 = 0 →
      exec (.cfbData len) s = .next { s with
        sr := r.2, dout := ofBytes 64 r.1, olen := len, err := .noError }) ∧
    (streaming → 1 ≤ len.toNat → len.toNat ≤ 64 → len.toNat % 8 ≠ 0 →
      exec (.cfbData len) s = .next { s with
        sr := zeros 8, cstate := .cKeyed, dout := ofBytes 64 r.1, olen := len, err := .noError })

/-- Rule R168: CFB_END. -/
def Obligations.CfbEndClosesTheStream : Prop :=
  (∀ len : Byte, decode (0#8 ++ len ++ 0x00#8 ++ 0x22#8) = .ok (.cfbEnd len)) ∧
  ∀ (len : Byte) (s : State),
    let streaming : Prop := s.cstate = .cStreamEnc ∨ s.cstate = .cStreamDec
    (¬ streaming →
      exec (.cfbEnd len) s = .next { s with err := .error .badState, esticky := true }) ∧
    (streaming → len.toNat ≠ 0 →
      exec (.cfbEnd len) s = .next { s with err := .error .invalidSize, esticky := true }) ∧
    (streaming → len.toNat = 0 →
      exec (.cfbEnd len) s = .next { s with sr := zeros 8, cstate := .cKeyed, err := .noError })

/-- Two CFB_DATA commands in a row, the first of full segments, both succeed and give between them the
output of one run over both chunks (rules R164 (b), R167). -/
def Obligations.CfbCommandsStreamInChunks : Prop :=
  ∀ (s : State) (dir : Dir) (a b : Bytes), s.cstate = streamState dir →
    1 ≤ a.length → a.length ≤ 64 → a.length % 8 = 0 → 1 ≤ b.length → b.length ≤ 64 →
    ∃ t u, exec (.cfbData (lenOf a)) (withDin a s) = .next t ∧
      exec (.cfbData (lenOf b)) (withDin b t) = .next u ∧ t.err = .noError ∧ u.err = .noError ∧
      t.dout.toList.take a.length ++ u.dout.toList.take b.length =
        (cfbRun Config.sbox dir s.k s.sr (a ++ b)).1

/-! ### Key transport -/

/-- Rules R183 and R188: the fields of an encoded blob, with the method codes (rule R99), the transport
key (rule R184), the diversification and its one iteration (rule R185), the wrapping block by block
(rule R186) and the chain of the tag (rule R187). -/
def Obligations.EncodedBlobHasTheLayout : Prop :=
  ∀ (sbox : SBox) (m : Method) (kek s : Key) (ukm : Block),
    let b := kwEncodeBlob sbox m kek ukm s
    let tk := transportKey sbox m kek ukm
    b.toList = methodCode m :: (ukm.toList ++ (wrapBlocks sbox tk s).toList ++
      (kwTag sbox tk ukm s).toList) ∧
    blobMethod b = methodCode m ∧ blobUkm b = ukm ∧ blobCipher b = wrapBlocks sbox tk s ∧
    blobTag b = kwTag sbox tk ukm s ∧
    (methodCode .plain = 1#8 ∧ methodCode .diversified = 2#8) ∧
    (transportKey sbox .plain kek ukm = kek ∧ transportKey sbox .diversified kek ukm = div sbox kek ukm) ∧
    div sbox kek ukm = (List.finRange 8).foldl (fun k i => divStep sbox k ukm[i]) kek ∧
    (∀ (k : Key) (u : Byte),
      let w : Fin 8 → Word := fun j => (keyWords k)[j]
      let s1 : Word := ((List.finRange 8).map fun j => if u.getLsbD j.val then w j else 0).sum
      let s2 : Word := ((List.finRange 8).map fun j => if u.getLsbD j.val then 0 else w j).sum
      (divStep sbox k u).toList =
        cfbEnc sbox k (ofBytes 8 ((bytes32le s1).toList ++ (bytes32le s2).toList)) k.toList) ∧
    (∀ t : Key,
      (wrapBlocks sbox t s).toList = (enc sbox t (slice s 0 8)).toList ++
        (enc sbox t (slice s 8 8)).toList ++ (enc sbox t (slice s 16 8)).toList ++
        (enc sbox t (slice s 24 8)).toList ∧
      (unwrapBlocks sbox t s).toList = (dec sbox t (slice s 0 8)).toList ++
        (dec sbox t (slice s 8 8)).toList ++ (dec sbox t (slice s 16 8)).toList ++
        (dec sbox t (slice s 24 8)).toList ∧
      kwTag sbox t ukm s =
        [slice s 0 8, slice s 8 8, slice s 16 8, slice s 24 8].foldl
          (fun x p => enc sbox t (Vector.zipWith (· ^^^ ·) x p)) ukm)

/-- Rule R193: decoding an encoded blob gives the session key back, for every S-box table, key-exchange
key, session key, `UKM` and method. -/
def Obligations.KwDecodeInvertsKwEncode : Prop :=
  ∀ (sbox : SBox) (m : Method) (kek s : Key) (ukm : Block),
    kwDecodeBlob sbox m kek (kwEncodeBlob sbox m kek ukm s) = some s

/-- The first four rows of rule R194, for any change of one byte: a change in `M`, in `C`, in `T`, or,
under method 1, in `UKM`, makes the decoding fail. The fifth row is no theorem of the rules (U10). -/
def Obligations.TamperedBlobFailsToDecode : Prop :=
  ∀ (sbox : SBox) (m : Method) (kek s : Key) (ukm : Block) (j : Fin 49) (x : Byte), x ≠ 0#8 →
    (j.val = 0 ∨ 9 ≤ j.val ∨ (1 ≤ j.val ∧ j.val ≤ 8 ∧ m = .plain)) →
    let b := kwEncodeBlob sbox m kek ukm s
    kwDecodeBlob sbox m kek (b.set j (b[j] ^^^ x)) = none

/-- Rule R190: KW_ENCODE. -/
def Obligations.KwEncodeEncodesTheSessionKey : Prop :=
  (∀ method len : Byte, decode (0#8 ++ len ++ method ++ 0x30#8) = .ok (.kwEncode method len)) ∧
  ∀ (method len : Byte) (s : State),
    (method.toNat ≠ 1 → method.toNat ≠ 2 →
      exec (.kwEncode method len) s =
        .next { s with err := .error .unsupportedMethod, esticky := true }) ∧
    (method.toNat = 1 ∨ method.toNat = 2 → len.toNat ≠ 72 →
      exec (.kwEncode method len) s = .next { s with err := .error .invalidSize, esticky := true }) ∧
    (∀ m : Method, method = methodCode m → len.toNat = 72 →
      exec (.kwEncode method len) s = .next { s with
        din := zeros 128
        dout := ofBytes 64
          (kwEncodeBlob Config.sbox m (slice s.din 0 32) (slice s.din 64 8) (slice s.din 32 32)).toList
        olen := 49#8
        err := .noError })

/-- Rules R191 and R254: KW_DECODE, its success and its IntegrityError; and rule R189: a blob decodes to a
key exactly when its method byte is the method's code, the key is its unwrapped cipher field under the
transport key, and the tag recomputed from that key is its tag field, so that it fails otherwise. -/
def Obligations.KwDecodeDecodesTheBlob : Prop :=
  (∀ method len : Byte, decode (0#8 ++ len ++ method ++ 0x31#8) = .ok (.kwDecode method len)) ∧
  (∀ (sbox : SBox) (m : Method) (kek : Key) (b : Blob) (key : Key),
    let ukm : Block := slice b 1 8
    let tk := transportKey sbox m kek ukm
    kwDecodeBlob sbox m kek b = some key ↔
      b[0] = methodCode m ∧ key = unwrapBlocks sbox tk (slice b 9 32) ∧
        kwTag sbox tk ukm key = slice b 41 8) ∧
  ∀ (method len : Byte) (s : State),
    (method.toNat ≠ 1 → method.toNat ≠ 2 →
      exec (.kwDecode method len) s =
        .next { s with err := .error .unsupportedMethod, esticky := true }) ∧
    (method.toNat = 1 ∨ method.toNat = 2 → len.toNat ≠ 81 →
      exec (.kwDecode method len) s = .next { s with err := .error .invalidSize, esticky := true }) ∧
    (∀ m : Method, method = methodCode m → len.toNat = 81 →
      exec (.kwDecode method len) s = .next
        (match kwDecodeBlob Config.sbox m (slice s.din 0 32) (slice s.din 32 49) with
        | some key => { s with
            din := zeros 128, dout := ofBytes 64 key.toList, olen := 32#8, err := .noError }
        | none => { s with
            din := zeros 128, dout := zeros 64, olen := 0#8
            err := .error .integrityError, esticky := true }))

/-- The blob that KW_ENCODE leaves in `DOUT`, loaded again behind the same key-exchange key, decodes with
the same method to the session key that was encoded (rules R182, R190, R191, R193). -/
def Obligations.KwDecodeRecoversTheEncodedKey : Prop :=
  ∀ (m : Method) (s : State),
    ∃ t u, exec (.kwEncode (methodCode m) 72) s = .next t ∧
      exec (.kwDecode (methodCode m) 81)
        (withDin (s.din.toList.take 32 ++ t.dout.toList.take 49) t) = .next u ∧
      u.err = .noError ∧ u.olen = 32#8 ∧
      u.dout.toList.take 32 = (s.din.toList.drop 32).take 32

/-- Rule R195: whatever made the verification fail, the state after the command is the same: two states
that differ only in `DIN` (the key-exchange key and the blob), and two methods, leave one state. -/
def Obligations.IntegrityFailuresLookAlike : Prop :=
  ∀ (s t t' : State) (din din' : Vector Byte 128) (method method' len len' : Byte),
    exec (.kwDecode method len) { s with din := din } = .next t →
    exec (.kwDecode method' len') { s with din := din' } = .next t' →
    t.err = .error .integrityError → t'.err = .error .integrityError → t = t'

/-- Neither key-transport command reads or writes a context (rule R182): on any two states that differ
only in the cipher and the HMAC context, each does the same to the rest, and each leaves both contexts as
they were. -/
def Obligations.KeyTransportIgnoresTheContexts : Prop :=
  ∀ (i : Instr) (s s' t : State), (∃ method len, i = .kwEncode method len ∨ i = .kwDecode method len) →
    exec i s = .next t →
    SameCipherContext s t ∧ SameHmacContext s t ∧
    exec i { s with
      k := s'.k, sr := s'.sr, cstate := s'.cstate, ikey := s'.ikey, okey := s'.okey,
      hacc := s'.hacc, hstate := s'.hstate } =
    .next { t with
      k := s'.k, sr := s'.sr, cstate := s'.cstate, ikey := s'.ikey, okey := s'.okey,
      hacc := s'.hacc, hstate := s'.hstate }

/-! ### HMAC engine -/

/-- Rules R211 and R213, with the pads of rule R212: the block-sized key and the construction, for every
hash. -/
def Obligations.HmacIsTheStandardConstruction : Prop :=
  ∀ (hash : HashFn) (key message : Bytes),
    (32 < key.length → hmacK0 hash key = hash key) ∧
    (key.length ≤ 32 → (hmacK0 hash key).toList = key ++ List.replicate (32 - key.length) 0#8) ∧
    hmac hash key message =
      hash (((hmacK0 hash key).toList.map (· ^^^ 0x5C#8)) ++
        (hash (((hmacK0 hash key).toList.map (· ^^^ 0x36#8)) ++ message)).toList)

/-- Rule R214: HMAC_INIT. -/
def Obligations.HmacInitCreatesTheContext : Prop :=
  (∀ len : Byte, decode (0#8 ++ len ++ 0x00#8 ++ 0x40#8) = .ok (.hmacInit len)) ∧
  ∀ (len : Byte) (s : State),
    let k0 := hmacK0 Config.hash (s.din.toList.take len.toNat)
    let live : Prop := s.hstate = .hInitialized ∨ s.hstate = .hAccumulating
    (live →
      exec (.hmacInit len) s = .next { s with err := .error .badState, esticky := true }) ∧
    (¬ live → 128 < len.toNat →
      exec (.hmacInit len) s = .next { s with err := .error .invalidSize, esticky := true }) ∧
    (¬ live → len.toNat ≤ 128 →
      exec (.hmacInit len) s = .next { s with
        ikey := k0.map (· ^^^ 0x36#8)
        okey := k0.map (· ^^^ 0x5C#8)
        hacc := (k0.map (· ^^^ 0x36#8)).toList
        hstate := .hInitialized
        din := zeros 128
        err := .noError })

/-- Rule R215: HMAC_UPDATE. -/
def Obligations.HmacUpdateAbsorbsTheChunk : Prop :=
  (∀ len : Byte, decode (0#8 ++ len ++ 0x00#8 ++ 0x41#8) = .ok (.hmacUpdate len)) ∧
  ∀ (len : Byte) (s : State),
    let live : Prop := s.hstate = .hInitialized ∨ s.hstate = .hAccumulating
    (s.hstate = .hFinalized →
      exec (.hmacUpdate len) s = .next { s with err := .error .useAfterFinalize, esticky := true }) ∧
    (s.hstate = .hNone →
      exec (.hmacUpdate len) s = .next { s with err := .error .badState, esticky := true }) ∧
    (live → 128 < len.toNat →
      exec (.hmacUpdate len) s = .next { s with err := .error .invalidSize, esticky := true }) ∧
    (live → len.toNat ≤ 128 →
      exec (.hmacUpdate len) s = .next { s with
        hacc := s.hacc ++ s.din.toList.take len.toNat, hstate := .hAccumulating, err := .noError })

/-- Rule R216: HMAC_FINAL. -/
def Obligations.HmacFinalProducesTheDigest : Prop :=
  (∀ len : Byte, decode (0#8 ++ len ++ 0x00#8 ++ 0x42#8) = .ok (.hmacFinal len)) ∧
  ∀ (len : Byte) (s : State),
    let live : Prop := s.hstate = .hInitialized ∨ s.hstate = .hAccumulating
    (s.hstate = .hFinalized →
      exec (.hmacFinal len) s = .next { s with err := .error .useAfterFinalize, esticky := true }) ∧
    (s.hstate = .hNone →
      exec (.hmacFinal len) s = .next { s with err := .error .badState, esticky := true }) ∧
    (live → len.toNat ≠ 0 →
      exec (.hmacFinal len) s = .next { s with err := .error .invalidSize, esticky := true }) ∧
    (live → len.toNat = 0 →
      exec (.hmacFinal len) s = .next { s with
        ikey := zeros 32
        okey := zeros 32
        hacc := []
        hstate := .hFinalized
        dout := ofBytes 64 (Config.hash (s.okey.toList ++ (Config.hash s.hacc).toList)).toList
        olen := 32#8
        err := .noError })

/-- Rule R217: HMAC_WIPE. -/
def Obligations.HmacWipeAbandonsTheContext : Prop :=
  (∀ len : Byte, decode (0#8 ++ len ++ 0x00#8 ++ 0x43#8) = .ok (.hmacWipe len)) ∧
  ∀ (len : Byte) (s : State),
    (len.toNat ≠ 0 →
      exec (.hmacWipe len) s = .next { s with err := .error .invalidSize, esticky := true }) ∧
    (len.toNat = 0 →
      exec (.hmacWipe len) s = .next { s with
        ikey := zeros 32, okey := zeros 32, hacc := [], hstate := .hNone, err := .noError })

/-- Rule R218: any number of chunks fed one after another leave the accumulator as the one chunk of their
concatenation would, the last chunk in `DIN`, and touch nothing else but `HSTATE` and `ERR`. -/
def Obligations.HmacUpdatesAbsorbTheConcatenation : Prop :=
  ∀ (s : State) (c : Bytes) (rest : List Bytes),
    s.hstate = .hInitialized ∨ s.hstate = .hAccumulating →
    (∀ d ∈ c :: rest, d.length ≤ 128) →
    feedHmac (c :: rest) s = .next { s with
      hacc := s.hacc ++ (c :: rest).flatten
      hstate := .hAccumulating
      din := ofBytes 128 ((c :: rest).getLast (List.cons_ne_nil c rest))
      err := .noError }

/-- HMAC_INIT with a key, any chunks, HMAC_FINAL: the digest in `DOUT` is `Hmac(key, m)` for the
concatenation `m` of the chunks, an empty message and an empty key included (rules R213 to R216). -/
def Obligations.HmacSessionComputesHmac : Prop :=
  ∀ (s : State) (key : Bytes) (chunks : List Bytes),
    s.hstate = .hNone ∨ s.hstate = .hFinalized → key.length ≤ 128 →
    (∀ d ∈ chunks, d.length ≤ 128) →
    ∃ t u v, exec (.hmacInit (lenOf key)) (withDin key s) = .next t ∧
      feedHmac chunks t = .next u ∧ exec (.hmacFinal 0) u = .next v ∧
      v.dout.toList.take 32 = (hmac Config.hash key chunks.flatten).toList ∧
      v.olen = 32#8 ∧ v.err = .noError ∧ v.hstate = .hFinalized

/-! ### Buffer and reset commands -/

/-- Rule R240: IO_WIPE. -/
def Obligations.IoWipeZeroesBothBuffers : Prop :=
  (∀ len : Byte, decode (0#8 ++ len ++ 0x00#8 ++ 0x50#8) = .ok (.ioWipe len)) ∧
  ∀ (len : Byte) (s : State),
    (len.toNat ≠ 0 →
      exec (.ioWipe len) s = .next { s with err := .error .invalidSize, esticky := true }) ∧
    (len.toNat = 0 →
      exec (.ioWipe len) s = .next { s with
        din := zeros 128, dout := zeros 64, olen := 0#8, err := .noError })

/-- Rule R241: SOFT_RESET. The host's pending moves and the bus's answer are the model's own fields and
no elements of the core (log entry 3). -/
def Obligations.SoftResetReturnsToReset : Prop :=
  (∀ len : Byte, decode (0#8 ++ len ++ 0x00#8 ++ 0x7F#8) = .ok (.softReset len)) ∧
  ∀ (len : Byte) (s : State),
    (len.toNat ≠ 0 →
      exec (.softReset len) s = .next { s with err := .error .invalidSize, esticky := true }) ∧
    (len.toNat = 0 →
      exec (.softReset len) s = .next { State.reset with pending := s.pending, reply := s.reply })
end

