-- ==== Sys2Proof/Laws/Bits.lean ====
section
/-! SUPPORT. Laws of byte order, sub-sequences and exclusive or: what each function of Machine/Bits.lean
gives, byte by byte, and the inverses. -/

namespace Sys2Proof.Machine

/-- Bit `i` of a word lies in byte `i / 8` of its sequence. -/
theorem le32_getLsbD (s : Vector Byte 4) (i : Nat) :
    (le32 s).getLsbD i =
      if i < 8 then s[0].getLsbD i else if i < 16 then s[1].getLsbD (i - 8)
      else if i < 24 then s[2].getLsbD (i - 16) else s[3].getLsbD (i - 24) := by
  change (s[3] ++ s[2] ++ s[1] ++ s[0]).getLsbD i = _
  simp only [BitVec.getLsbD_append]
  split
  · rfl
  · split <;> rename_i h1 h2
    · simp [show i < 16 by omega]
    · simp only [show ¬ i < 16 by omega, if_false]
      split <;> rename_i h3
      · simp [show i < 24 by omega, show i - 8 - 8 = i - 16 by omega]
      · simp [show ¬ i < 24 by omega, show i - 8 - 8 - 8 = i - 24 by omega]

/-- Byte `i` of a word's sequence is bits `8i+7 .. 8i`. -/
theorem bytes32le_getElem (w : Word) (i : Nat) (hi : i < 4) :
    (bytes32le w)[i] = w.extractLsb' (8 * i) 8 := by
  have h : i = 0 ∨ i = 1 ∨ i = 2 ∨ i = 3 := by omega
  rcases h with rfl | rfl | rfl | rfl <;> rfl

theorem bytes32le_le32 (s : Vector Byte 4) : bytes32le (le32 s) = s := by
  ext i hi : 1
  rw [bytes32le_getElem]
  apply BitVec.eq_of_getLsbD_eq
  intro j hj
  have h : i = 0 ∨ i = 1 ∨ i = 2 ∨ i = 3 := by omega
  rcases h with rfl | rfl | rfl | rfl <;>
    simp [le32_getLsbD, hj, show ¬ 8 + j < 8 by omega,
      show 8 + j < 16 by omega, show ¬ 16 + j < 8 by omega, show ¬ 16 + j < 16 by omega,
      show 16 + j < 24 by omega, show ¬ 24 + j < 8 by omega, show ¬ 24 + j < 16 by omega,
      show ¬ 24 + j < 24 by omega]

theorem le32_bytes32le (w : Word) : le32 (bytes32le w) = w := by
  apply BitVec.eq_of_getLsbD_eq
  intro i hi
  simp only [le32_getLsbD, bytes32le_getElem, BitVec.getLsbD_extractLsb']
  split
  · simp [*]
  · split
    · simp [show i - 8 < 8 by omega, show 8 + (i - 8) = i by omega]
    · split
      · simp [show i - 16 < 8 by omega, show 16 + (i - 16) = i by omega]
      · simp [show i - 24 < 8 by omega, show 24 + (i - 24) = i by omega]

/-- The sum of rule R11. -/
theorem le32_toNat (s : Vector Byte 4) :
    (le32 s).toNat =
      s[0].toNat + 2 ^ 8 * s[1].toNat + 2 ^ 16 * s[2].toNat + 2 ^ 24 * s[3].toNat := by
  have h0 := s[0].isLt
  have h1 := s[1].isLt
  have h2 := s[2].isLt
  simp only [le32, BitVec.toNat_append]
  rw [← Nat.shiftLeft_add_eq_or_of_lt h2, ← Nat.shiftLeft_add_eq_or_of_lt h1,
    ← Nat.shiftLeft_add_eq_or_of_lt h0]
  simp only [Nat.shiftLeft_eq]
  omega

@[simp] theorem slice_getElem {m : Nat} (v : Vector Byte m) (off n : Nat) (h : off + n ≤ m)
    (i : Nat) (hi : i < n) : (slice v off n h)[i] = v[off + i]'(by omega) := by
  simp [slice]

@[simp] theorem ofBytes_getElem (n : Nat) (s : Bytes) (i : Nat) (hi : i < n) :
    (ofBytes n s)[i] = s.getD i 0#8 := by
  simp only [ofBytes, Vector.getElem_mk, List.getElem_toArray, List.getElem_take,
    List.getElem_append, List.getD_eq_getElem?_getD]
  split <;> simp_all

@[simp] theorem ofBytes_toList {n : Nat} (v : Vector Byte n) : ofBytes n v.toList = v := by
  ext i hi
  simp [hi]

/-- A sequence of the right length is the sequence it makes. -/
theorem toList_ofBytes {n : Nat} (s : Bytes) (h : s.length = n) : (ofBytes n s).toList = s := by
  apply List.ext_getElem
  · simp [h]
  · intro i _ hi
    simp [hi]

theorem ofBytes_nil (n : Nat) : ofBytes n [] = zeros n := by
  ext i hi
  simp

@[simp] theorem xorV_getElem {n : Nat} (s t : Vector Byte n) (i : Nat) (hi : i < n) :
    (xorV s t)[i] = s[i] ^^^ t[i] := by
  simp [xorV]

theorem xorV_self_right {n : Nat} (s t : Vector Byte n) : xorV (xorV s t) t = s := by
  ext i hi : 1
  simp

@[simp] theorem xorBytes_length (s t : Bytes) :
    (xorBytes s t).length = min s.length t.length := by
  simp [xorBytes]

/-- The exclusive or with the same keystream, twice, gives the segment back. -/
theorem xorBytes_self_right (s t : Bytes) (h : s.length ≤ t.length) :
    xorBytes (xorBytes s t) t = s := by
  induction s generalizing t with
  | nil => simp [xorBytes]
  | cons a s ih =>
    cases t with
    | nil => simp at h
    | cons b t =>
      have := ih t (by simpa using h)
      simp_all [xorBytes]

theorem ofHalves_getElem (x : Halves) (i : Nat) (hi : i < 8) :
    (ofHalves x)[i] = if h : i < 4 then (bytes32le x.1)[i] else (bytes32le x.2)[i - 4] := by
  change (bytes32le x.1 ++ bytes32le x.2)[i] = _
  rw [Vector.getElem_append]

theorem toHalves_ofHalves (x : Halves) : toHalves (ofHalves x) = x := by
  have h0 : slice (ofHalves x) 0 4 = bytes32le x.1 := by
    ext i hi : 1
    simp [ofHalves_getElem, hi]
  have h1 : slice (ofHalves x) 4 4 = bytes32le x.2 := by
    ext i hi : 1
    simp [ofHalves_getElem]
  simp [toHalves, h0, h1, le32_bytes32le]

theorem ofHalves_toHalves (b : Block) : ofHalves (toHalves b) = b := by
  ext i hi : 1
  simp only [ofHalves_getElem, toHalves, bytes32le_le32, slice_getElem]
  split <;> congr 1 <;> omega

end Sys2Proof.Machine
end

