-- ==== Sys2Proof/Laws/CfbMode.lean ====
section
/-! SUPPORT. What one CFB segment and one run of segments give: lengths, the register, and the run
unrolled by one segment, so that no later proof unfolds the loop. -/

namespace Sys2Proof.Machine

@[simp] theorem cfbStep_fst (sbox : SBox) (dir : Dir) (k : Subkeys) (sr : Block) (m : Bytes) :
    (cfbStep sbox dir k sr m).1 = xorBytes m (encWords sbox k sr).toList := rfl

theorem cfbStep_length (sbox : SBox) (dir : Dir) (k : Subkeys) (sr : Block) (m : Bytes)
    (h : m.length ≤ 8) : (cfbStep sbox dir k sr m).1.length = m.length := by
  simp [h]

/-- After a full segment the register is the ciphertext (rule R160). -/
theorem cfbStep_snd_full (sbox : SBox) (dir : Dir) (k : Subkeys) (sr : Block) (m : Bytes)
    (h : m.length = 8) :
    (cfbStep sbox dir k sr m).2 =
      ofBytes 8 (match dir with | .enc => (cfbStep sbox dir k sr m).1 | .dec => m) := by
  cases dir <;> simp [cfbStep, h]

/-- After a partial segment the register is zero (rule R160). -/
theorem cfbStep_snd_partial (sbox : SBox) (dir : Dir) (k : Subkeys) (sr : Block) (m : Bytes)
    (h : m.length ≠ 8) : (cfbStep sbox dir k sr m).2 = zeros 8 := by
  simp [cfbStep, h]

/-- The loop's bound does not matter once it is no less than the number of bytes. -/
theorem cfbLoop_bound (sbox : SBox) (dir : Dir) (k : Subkeys) (n m : Nat) (sr : Block) (d : Bytes)
    (h : d.length ≤ n) (h' : d.length ≤ m) :
    cfbLoop sbox dir k n sr d = cfbLoop sbox dir k m sr d := by
  induction n generalizing m sr d with
  | zero =>
    simp only [Nat.le_zero, List.length_eq_zero_iff] at h
    subst h
    cases m <;> simp [cfbLoop]
  | succ n ih =>
    cases m with
    | zero =>
      simp only [Nat.le_zero, List.length_eq_zero_iff] at h'
      subst h'
      simp [cfbLoop]
    | succ m =>
      unfold cfbLoop
      split
      · rfl
      · rename_i hne
        have : 0 < d.length := List.length_pos_iff.2 hne
        simp only
        rw [ih m _ (d.drop 8) (by simp; omega) (by simp; omega)]

@[simp] theorem cfbRun_nil (sbox : SBox) (dir : Dir) (k : Subkeys) (sr : Block) :
    cfbRun sbox dir k sr [] = ([], sr) := rfl

/-- A run over a sequence that is not empty: its first segment, then the run over the rest (rule
R162). -/
theorem cfbRun_cons (sbox : SBox) (dir : Dir) (k : Subkeys) (sr : Block) (d : Bytes) (h : d ≠ []) :
    cfbRun sbox dir k sr d =
      ((cfbStep sbox dir k sr (d.take 8)).1 ++
        (cfbRun sbox dir k (cfbStep sbox dir k sr (d.take 8)).2 (d.drop 8)).1,
       (cfbRun sbox dir k (cfbStep sbox dir k sr (d.take 8)).2 (d.drop 8)).2) := by
  have hpos : 0 < d.length := List.length_pos_iff.2 h
  unfold cfbRun
  conv_lhs => rw [show d.length = (d.length - 1) + 1 by omega]; unfold cfbLoop
  rw [if_neg h]
  simp only
  rw [cfbLoop_bound sbox dir k (d.length - 1) (d.drop 8).length _ (d.drop 8) (by simp; omega) le_rfl]

/-- A run over one segment, full or partial, is that segment's step (rule R162). -/
theorem cfbRun_segment (sbox : SBox) (dir : Dir) (k : Subkeys) (sr : Block) (d : Bytes) (h : d ≠ [])
    (h8 : d.length ≤ 8) : cfbRun sbox dir k sr d = cfbStep sbox dir k sr d := by
  rw [cfbRun_cons _ _ _ _ _ h, List.drop_eq_nil_of_le h8, List.take_of_length_le h8, cfbRun_nil,
    List.append_nil]

/-- The output of a run is as long as its input (rule R162). -/
theorem cfbRun_length (sbox : SBox) (dir : Dir) (k : Subkeys) (sr : Block) (d : Bytes) :
    (cfbRun sbox dir k sr d).1.length = d.length := by
  induction hn : d.length using Nat.strong_induction_on generalizing d sr with
  | _ n ih =>
    by_cases h : d = []
    · subst h
      simpa using hn
    · have hpos : 0 < d.length := List.length_pos_iff.2 h
      rw [cfbRun_cons _ _ _ _ _ h, List.length_append, cfbStep_length _ _ _ _ _ (by simp),
        ih (d.drop 8).length (by simp; omega) _ _ rfl]
      simp
      omega

end Sys2Proof.Machine
end

