-- ==== Sys2Proof/Laws/CipherCore.lean ====
section
/-! SUPPORT. Laws of the cipher core: the bits of the substitution and of the rotation, and what one
round is made of. -/

namespace Sys2Proof.Machine

/-- Bit `j` of the substitution comes from the table of its nibble (rule R121). -/
theorem sub_getLsbD (sbox : SBox) (x : Word) (i : Fin 8) (j : Nat) (hj : j < 4) :
    (sub sbox x).getLsbD (4 * i.val + j) = (sbox i (x.extractLsb' (4 * i.val) 4)).getLsbD j := by
  let n (i : Fin 8) : BitVec 4 := sbox i (x.extractLsb' (4 * i.val) 4)
  change (n 7 ++ n 6 ++ n 5 ++ n 4 ++ n 3 ++ n 2 ++ n 1 ++ n 0 :
    BitVec (4 + 4 + 4 + 4 + 4 + 4 + 4 + 4)).getLsbD (4 * i.val + j) = (n i).getLsbD j
  simp only [BitVec.getLsbD_append]
  fin_cases i <;> interval_cases j <;> rfl

/-- Bit `j` of a word becomes bit `(j + n) mod 32` of its rotation (rule R10). -/
theorem rotl32_getLsbD (a : Word) (n j : Nat) (hn : 0 < n) (hn' : n < 32) (hj : j < 32) :
    (rotl32 a n).getLsbD ((j + n) % 32) = a.getLsbD j := by
  rw [rotl32, BitVec.getLsbD_or, BitVec.getLsbD_shiftLeft, BitVec.getLsbD_ushiftRight]
  rcases Nat.lt_or_ge j (32 - n) with h | h
  · rw [Nat.mod_eq_of_lt (by omega)]
    have high : a.getLsbD (32 - n + (j + n)) = false := BitVec.getLsbD_of_ge _ _ (by omega)
    simp [high, show j + n < 32 by omega]
  · rw [show (j + n) % 32 = j + n - 32 by omega]
    simp [show j + n - 32 < n by omega, show 32 - n + (j + n - 32) = j by omega]

/-- A round without its swap undoes itself, for every S-box table (rule R131). -/
@[simp] theorem lastRound_lastRound (sbox : SBox) (k : Word) (x : Halves) :
    lastRound sbox k (lastRound sbox k x) = x := by
  simp [lastRound]

/-- A round is the last round and then the swap (rules R127, R128, R131). -/
theorem feistelRound_eq_swap (sbox : SBox) (k : Word) (x : Halves) :
    feistelRound sbox k x = (lastRound sbox k x).swap := rfl

@[simp] theorem rounds_zero (sbox : SBox) (k : Subkeys) (sel : Nat → Fin 8) (x : Halves) :
    rounds sbox k sel 0 x = x := rfl

theorem rounds_succ (sbox : SBox) (k : Subkeys) (sel : Nat → Fin 8) (n : Nat) (x : Halves) :
    rounds sbox k sel (n + 1) x =
      feistelRound sbox k[sel (n + 1)] (rounds sbox k sel n x) := rfl

end Sys2Proof.Machine
end

