-- ==== Sys2Proof/Laws/Decode.lean ====
section
/-! SUPPORT. What the decoder and the fields of a word are, said once each. -/

namespace Sys2Proof

/-- The four fields of a word put together from them (rule R91). -/
theorem fields_of_append (rsv len arg opc : Byte) :
    fieldOpc (rsv ++ len ++ arg ++ opc) = opc ∧ fieldArg (rsv ++ len ++ arg ++ opc) = arg ∧
      fieldLen (rsv ++ len ++ arg ++ opc) = len ∧ fieldRsv (rsv ++ len ++ arg ++ opc) = rsv := by
  refine ⟨?_, ?_, ?_, ?_⟩ <;> apply BitVec.eq_of_getLsbD_eq <;> intro j hj <;>
    simp only [fieldOpc, fieldArg, fieldLen, fieldRsv, BitVec.getLsbD_extractLsb'] <;>
    (change (decide (j < 8) && (rsv ++ len ++ arg ++ opc : BitVec (8 + 8 + 8 + 8)).getLsbD _) = _) <;>
    simp only [BitVec.getLsbD_append] <;> interval_cases j <;> simp

/-- A word is its four fields (rule R90). -/
theorem word_eq_fields (w : Word) : w = fieldRsv w ++ fieldLen w ++ fieldArg w ++ fieldOpc w := by
  apply BitVec.eq_of_getLsbD_eq
  intro j hj
  change _ = (fieldRsv w ++ fieldLen w ++ fieldArg w ++ fieldOpc w : BitVec (8 + 8 + 8 + 8)).getLsbD j
  simp only [BitVec.getLsbD_append, fieldOpc, fieldArg, fieldLen, fieldRsv,
    BitVec.getLsbD_extractLsb']
  split
  · simp [*]
  · split
    · simp [*, show 8 + (j - 8) = j by omega]
    · split
      · simp [*, show 16 + (j - 8 - 8) = j by omega]
      · simp [show 24 + (j - 8 - 8 - 8) = j by omega, show j - 8 - 8 - 8 < 8 by omega]

/-- The decoder on a word given by its fields (rule R94). -/
theorem decode_append (rsv len arg opc : Byte) :
    decode (rsv ++ len ++ arg ++ opc) =
      if rsv = 0#8 then decodeFields opc arg len else .error .reservedBits := by
  obtain ⟨h1, h2, h3, h4⟩ := fields_of_append rsv len arg opc
  unfold decode
  rw [h1, h2, h3, h4]

theorem decodeNoArg_ok {arg : Byte} {i j : Instr} (h : decodeNoArg arg i = .ok j) :
    arg = 0#8 ∧ j = i := by
  unfold decodeNoArg at h
  split at h
  · exact ⟨‹_›, (Except.ok.inj h).symm⟩
  · cases h

/-- A choice that answers a command answers it on one of its sides. -/
theorem ite_eq_ok {c : Prop} [Decidable c] {a b : Except IllegalCause Instr} {i : Instr}
    (h : (if c then a else b) = .ok i) : (c ∧ a = .ok i) ∨ b = .ok i := by
  split at h
  · exact .inl ⟨‹_›, h⟩
  · exact .inr h

/-- A command that takes no argument carries the fields it was decoded from. -/
theorem noArg_fields {opc arg len : Byte} {i j : Instr} (h : decodeNoArg arg j = .ok i)
    (hopc : j.opcode = opc) (harg : j.arg = 0#8) (hlen : j.len = len) :
    i.opcode = opc ∧ i.arg = arg ∧ i.len = len := by
  obtain ⟨rfl, rfl⟩ := decodeNoArg_ok h
  exact ⟨hopc, harg, hlen⟩

/-- The decoded command carries the word's fields: none is dropped or misplaced (rules R91, R94). -/
theorem decodeFields_ok {opc arg len : Byte} {i : Instr} (h : decodeFields opc arg len = .ok i) :
    i.opcode = opc ∧ i.arg = arg ∧ i.len = len := by
  unfold decodeFields at h
  rcases ite_eq_ok h with ⟨e, h⟩ | h
  · exact noArg_fields h e.symm rfl rfl
  rcases ite_eq_ok h with ⟨e, h⟩ | h
  · exact noArg_fields h e.symm rfl rfl
  rcases ite_eq_ok h with ⟨e, h⟩ | h
  · exact noArg_fields h e.symm rfl rfl
  rcases ite_eq_ok h with ⟨e, h⟩ | h
  · exact noArg_fields h e.symm rfl rfl
  rcases ite_eq_ok h with ⟨e, h⟩ | h
  · unfold decodeCfbStart at h
    rcases ite_eq_ok h with ⟨ea, h⟩ | h
    · cases h
      exact ⟨e.symm, ea.symm, rfl⟩
    rcases ite_eq_ok h with ⟨ea, h⟩ | h
    · cases h
      exact ⟨e.symm, ea.symm, rfl⟩
    · cases h
  rcases ite_eq_ok h with ⟨e, h⟩ | h
  · exact noArg_fields h e.symm rfl rfl
  rcases ite_eq_ok h with ⟨e, h⟩ | h
  · exact noArg_fields h e.symm rfl rfl
  rcases ite_eq_ok h with ⟨e, h⟩ | h
  · cases h
    exact ⟨e.symm, rfl, rfl⟩
  rcases ite_eq_ok h with ⟨e, h⟩ | h
  · cases h
    exact ⟨e.symm, rfl, rfl⟩
  rcases ite_eq_ok h with ⟨e, h⟩ | h
  · exact noArg_fields h e.symm rfl rfl
  rcases ite_eq_ok h with ⟨e, h⟩ | h
  · exact noArg_fields h e.symm rfl rfl
  rcases ite_eq_ok h with ⟨e, h⟩ | h
  · exact noArg_fields h e.symm rfl rfl
  rcases ite_eq_ok h with ⟨e, h⟩ | h
  · exact noArg_fields h e.symm rfl rfl
  rcases ite_eq_ok h with ⟨e, h⟩ | h
  · exact noArg_fields h e.symm rfl rfl
  rcases ite_eq_ok h with ⟨e, h⟩ | h
  · exact noArg_fields h e.symm rfl rfl
  · cases h

end Sys2Proof
end

