-- ==== Sys2Proof/Laws/State.lean ====
section
/-! SUPPORT. What each shared update of the state leaves in each field, and the fields of the reset state: one
lemma per field and update, each by rfl. -/

namespace Sys2Proof.Machine

@[simp] theorem State.reset_k : State.reset.k = zeroWords := rfl
@[simp] theorem State.reset_sr : State.reset.sr = zeros 8 := rfl
@[simp] theorem State.reset_cstate : State.reset.cstate = .cEmpty := rfl
@[simp] theorem State.reset_ikey : State.reset.ikey = zeros 32 := rfl
@[simp] theorem State.reset_okey : State.reset.okey = zeros 32 := rfl
@[simp] theorem State.reset_hacc : State.reset.hacc = [] := rfl
@[simp] theorem State.reset_hstate : State.reset.hstate = .hNone := rfl
@[simp] theorem State.reset_din : State.reset.din = zeros 128 := rfl
@[simp] theorem State.reset_dout : State.reset.dout = zeros 64 := rfl
@[simp] theorem State.reset_olen : State.reset.olen = 0#8 := rfl
@[simp] theorem State.reset_err : State.reset.err = .noError := rfl
@[simp] theorem State.reset_esticky : State.reset.esticky = false := rfl
@[simp] theorem State.reset_pending : State.reset.pending = [] := rfl
@[simp] theorem State.reset_reply : State.reset.reply = .idle := rfl

@[simp] theorem setOut_k (out : Bytes) (s : State) : (setOut out s).k = s.k := rfl
@[simp] theorem setOut_sr (out : Bytes) (s : State) : (setOut out s).sr = s.sr := rfl
@[simp] theorem setOut_cstate (out : Bytes) (s : State) : (setOut out s).cstate = s.cstate := rfl
@[simp] theorem setOut_ikey (out : Bytes) (s : State) : (setOut out s).ikey = s.ikey := rfl
@[simp] theorem setOut_okey (out : Bytes) (s : State) : (setOut out s).okey = s.okey := rfl
@[simp] theorem setOut_hacc (out : Bytes) (s : State) : (setOut out s).hacc = s.hacc := rfl
@[simp] theorem setOut_hstate (out : Bytes) (s : State) : (setOut out s).hstate = s.hstate := rfl
@[simp] theorem setOut_din (out : Bytes) (s : State) : (setOut out s).din = s.din := rfl
@[simp] theorem setOut_dout (out : Bytes) (s : State) : (setOut out s).dout = ofBytes 64 out := rfl
@[simp] theorem setOut_olen (out : Bytes) (s : State) : (setOut out s).olen = BitVec.ofNat 8 out.length := rfl
@[simp] theorem setOut_err (out : Bytes) (s : State) : (setOut out s).err = s.err := rfl
@[simp] theorem setOut_esticky (out : Bytes) (s : State) : (setOut out s).esticky = s.esticky := rfl
@[simp] theorem setOut_pending (out : Bytes) (s : State) : (setOut out s).pending = s.pending := rfl
@[simp] theorem setOut_reply (out : Bytes) (s : State) : (setOut out s).reply = s.reply := rfl

@[simp] theorem wipeDin_k (s : State) : (wipeDin s).k = s.k := rfl
@[simp] theorem wipeDin_sr (s : State) : (wipeDin s).sr = s.sr := rfl
@[simp] theorem wipeDin_cstate (s : State) : (wipeDin s).cstate = s.cstate := rfl
@[simp] theorem wipeDin_ikey (s : State) : (wipeDin s).ikey = s.ikey := rfl
@[simp] theorem wipeDin_okey (s : State) : (wipeDin s).okey = s.okey := rfl
@[simp] theorem wipeDin_hacc (s : State) : (wipeDin s).hacc = s.hacc := rfl
@[simp] theorem wipeDin_hstate (s : State) : (wipeDin s).hstate = s.hstate := rfl
@[simp] theorem wipeDin_din (s : State) : (wipeDin s).din = zeros 128 := rfl
@[simp] theorem wipeDin_dout (s : State) : (wipeDin s).dout = s.dout := rfl
@[simp] theorem wipeDin_olen (s : State) : (wipeDin s).olen = s.olen := rfl
@[simp] theorem wipeDin_err (s : State) : (wipeDin s).err = s.err := rfl
@[simp] theorem wipeDin_esticky (s : State) : (wipeDin s).esticky = s.esticky := rfl
@[simp] theorem wipeDin_pending (s : State) : (wipeDin s).pending = s.pending := rfl
@[simp] theorem wipeDin_reply (s : State) : (wipeDin s).reply = s.reply := rfl

@[simp] theorem succeed_k (s : State) : (succeed s).k = s.k := rfl
@[simp] theorem succeed_sr (s : State) : (succeed s).sr = s.sr := rfl
@[simp] theorem succeed_cstate (s : State) : (succeed s).cstate = s.cstate := rfl
@[simp] theorem succeed_ikey (s : State) : (succeed s).ikey = s.ikey := rfl
@[simp] theorem succeed_okey (s : State) : (succeed s).okey = s.okey := rfl
@[simp] theorem succeed_hacc (s : State) : (succeed s).hacc = s.hacc := rfl
@[simp] theorem succeed_hstate (s : State) : (succeed s).hstate = s.hstate := rfl
@[simp] theorem succeed_din (s : State) : (succeed s).din = s.din := rfl
@[simp] theorem succeed_dout (s : State) : (succeed s).dout = s.dout := rfl
@[simp] theorem succeed_olen (s : State) : (succeed s).olen = s.olen := rfl
@[simp] theorem succeed_err (s : State) : (succeed s).err = .noError := rfl
@[simp] theorem succeed_esticky (s : State) : (succeed s).esticky = s.esticky := rfl
@[simp] theorem succeed_pending (s : State) : (succeed s).pending = s.pending := rfl
@[simp] theorem succeed_reply (s : State) : (succeed s).reply = s.reply := rfl

@[simp] theorem raise_k (kind : ErrorKind) (s : State) : (raise kind s).k = s.k := rfl
@[simp] theorem raise_sr (kind : ErrorKind) (s : State) : (raise kind s).sr = s.sr := rfl
@[simp] theorem raise_cstate (kind : ErrorKind) (s : State) : (raise kind s).cstate = s.cstate := rfl
@[simp] theorem raise_ikey (kind : ErrorKind) (s : State) : (raise kind s).ikey = s.ikey := rfl
@[simp] theorem raise_okey (kind : ErrorKind) (s : State) : (raise kind s).okey = s.okey := rfl
@[simp] theorem raise_hacc (kind : ErrorKind) (s : State) : (raise kind s).hacc = s.hacc := rfl
@[simp] theorem raise_hstate (kind : ErrorKind) (s : State) : (raise kind s).hstate = s.hstate := rfl
@[simp] theorem raise_din (kind : ErrorKind) (s : State) : (raise kind s).din = s.din := rfl
@[simp] theorem raise_dout (kind : ErrorKind) (s : State) : (raise kind s).dout = s.dout := rfl
@[simp] theorem raise_olen (kind : ErrorKind) (s : State) : (raise kind s).olen = s.olen := rfl
@[simp] theorem raise_err (kind : ErrorKind) (s : State) : (raise kind s).err = .error kind := rfl
@[simp] theorem raise_esticky (kind : ErrorKind) (s : State) : (raise kind s).esticky = true := rfl
@[simp] theorem raise_pending (kind : ErrorKind) (s : State) : (raise kind s).pending = s.pending := rfl
@[simp] theorem raise_reply (kind : ErrorKind) (s : State) : (raise kind s).reply = s.reply := rfl

@[simp] theorem raiseIntegrity_k (s : State) : (raiseIntegrity s).k = s.k := rfl
@[simp] theorem raiseIntegrity_sr (s : State) : (raiseIntegrity s).sr = s.sr := rfl
@[simp] theorem raiseIntegrity_cstate (s : State) : (raiseIntegrity s).cstate = s.cstate := rfl
@[simp] theorem raiseIntegrity_ikey (s : State) : (raiseIntegrity s).ikey = s.ikey := rfl
@[simp] theorem raiseIntegrity_okey (s : State) : (raiseIntegrity s).okey = s.okey := rfl
@[simp] theorem raiseIntegrity_hacc (s : State) : (raiseIntegrity s).hacc = s.hacc := rfl
@[simp] theorem raiseIntegrity_hstate (s : State) : (raiseIntegrity s).hstate = s.hstate := rfl
@[simp] theorem raiseIntegrity_din (s : State) : (raiseIntegrity s).din = zeros 128 := rfl
@[simp] theorem raiseIntegrity_dout (s : State) : (raiseIntegrity s).dout = ofBytes 64 [] := rfl
@[simp] theorem raiseIntegrity_olen (s : State) : (raiseIntegrity s).olen = 0#8 := rfl
@[simp] theorem raiseIntegrity_err (s : State) : (raiseIntegrity s).err = .error .integrityError := rfl
@[simp] theorem raiseIntegrity_esticky (s : State) : (raiseIntegrity s).esticky = true := rfl
@[simp] theorem raiseIntegrity_pending (s : State) : (raiseIntegrity s).pending = s.pending := rfl
@[simp] theorem raiseIntegrity_reply (s : State) : (raiseIntegrity s).reply = s.reply := rfl

@[simp] theorem dropCipherContext_k (s : State) : (dropCipherContext s).k = zeroWords := rfl
@[simp] theorem dropCipherContext_sr (s : State) : (dropCipherContext s).sr = zeros 8 := rfl
@[simp] theorem dropCipherContext_cstate (s : State) : (dropCipherContext s).cstate = .cEmpty := rfl
@[simp] theorem dropCipherContext_ikey (s : State) : (dropCipherContext s).ikey = s.ikey := rfl
@[simp] theorem dropCipherContext_okey (s : State) : (dropCipherContext s).okey = s.okey := rfl
@[simp] theorem dropCipherContext_hacc (s : State) : (dropCipherContext s).hacc = s.hacc := rfl
@[simp] theorem dropCipherContext_hstate (s : State) : (dropCipherContext s).hstate = s.hstate := rfl
@[simp] theorem dropCipherContext_din (s : State) : (dropCipherContext s).din = s.din := rfl
@[simp] theorem dropCipherContext_dout (s : State) : (dropCipherContext s).dout = s.dout := rfl
@[simp] theorem dropCipherContext_olen (s : State) : (dropCipherContext s).olen = s.olen := rfl
@[simp] theorem dropCipherContext_err (s : State) : (dropCipherContext s).err = s.err := rfl
@[simp] theorem dropCipherContext_esticky (s : State) : (dropCipherContext s).esticky = s.esticky := rfl
@[simp] theorem dropCipherContext_pending (s : State) : (dropCipherContext s).pending = s.pending := rfl
@[simp] theorem dropCipherContext_reply (s : State) : (dropCipherContext s).reply = s.reply := rfl

@[simp] theorem closeStream_k (s : State) : (closeStream s).k = s.k := rfl
@[simp] theorem closeStream_sr (s : State) : (closeStream s).sr = zeros 8 := rfl
@[simp] theorem closeStream_cstate (s : State) : (closeStream s).cstate = .cKeyed := rfl
@[simp] theorem closeStream_ikey (s : State) : (closeStream s).ikey = s.ikey := rfl
@[simp] theorem closeStream_okey (s : State) : (closeStream s).okey = s.okey := rfl
@[simp] theorem closeStream_hacc (s : State) : (closeStream s).hacc = s.hacc := rfl
@[simp] theorem closeStream_hstate (s : State) : (closeStream s).hstate = s.hstate := rfl
@[simp] theorem closeStream_din (s : State) : (closeStream s).din = s.din := rfl
@[simp] theorem closeStream_dout (s : State) : (closeStream s).dout = s.dout := rfl
@[simp] theorem closeStream_olen (s : State) : (closeStream s).olen = s.olen := rfl
@[simp] theorem closeStream_err (s : State) : (closeStream s).err = s.err := rfl
@[simp] theorem closeStream_esticky (s : State) : (closeStream s).esticky = s.esticky := rfl
@[simp] theorem closeStream_pending (s : State) : (closeStream s).pending = s.pending := rfl
@[simp] theorem closeStream_reply (s : State) : (closeStream s).reply = s.reply := rfl

@[simp] theorem dropHmacContext_k (h : HState) (s : State) : (dropHmacContext h s).k = s.k := rfl
@[simp] theorem dropHmacContext_sr (h : HState) (s : State) : (dropHmacContext h s).sr = s.sr := rfl
@[simp] theorem dropHmacContext_cstate (h : HState) (s : State) : (dropHmacContext h s).cstate = s.cstate := rfl
@[simp] theorem dropHmacContext_ikey (h : HState) (s : State) : (dropHmacContext h s).ikey = zeros 32 := rfl
@[simp] theorem dropHmacContext_okey (h : HState) (s : State) : (dropHmacContext h s).okey = zeros 32 := rfl
@[simp] theorem dropHmacContext_hacc (h : HState) (s : State) : (dropHmacContext h s).hacc = [] := rfl
@[simp] theorem dropHmacContext_hstate (h : HState) (s : State) : (dropHmacContext h s).hstate = h := rfl
@[simp] theorem dropHmacContext_din (h : HState) (s : State) : (dropHmacContext h s).din = s.din := rfl
@[simp] theorem dropHmacContext_dout (h : HState) (s : State) : (dropHmacContext h s).dout = s.dout := rfl
@[simp] theorem dropHmacContext_olen (h : HState) (s : State) : (dropHmacContext h s).olen = s.olen := rfl
@[simp] theorem dropHmacContext_err (h : HState) (s : State) : (dropHmacContext h s).err = s.err := rfl
@[simp] theorem dropHmacContext_esticky (h : HState) (s : State) : (dropHmacContext h s).esticky = s.esticky := rfl
@[simp] theorem dropHmacContext_pending (h : HState) (s : State) : (dropHmacContext h s).pending = s.pending := rfl
@[simp] theorem dropHmacContext_reply (h : HState) (s : State) : (dropHmacContext h s).reply = s.reply := rfl

@[simp] theorem resetCore_k (s : State) : (resetCore s).k = zeroWords := rfl
@[simp] theorem resetCore_sr (s : State) : (resetCore s).sr = zeros 8 := rfl
@[simp] theorem resetCore_cstate (s : State) : (resetCore s).cstate = .cEmpty := rfl
@[simp] theorem resetCore_ikey (s : State) : (resetCore s).ikey = zeros 32 := rfl
@[simp] theorem resetCore_okey (s : State) : (resetCore s).okey = zeros 32 := rfl
@[simp] theorem resetCore_hacc (s : State) : (resetCore s).hacc = [] := rfl
@[simp] theorem resetCore_hstate (s : State) : (resetCore s).hstate = .hNone := rfl
@[simp] theorem resetCore_din (s : State) : (resetCore s).din = zeros 128 := rfl
@[simp] theorem resetCore_dout (s : State) : (resetCore s).dout = zeros 64 := rfl
@[simp] theorem resetCore_olen (s : State) : (resetCore s).olen = 0#8 := rfl
@[simp] theorem resetCore_err (s : State) : (resetCore s).err = .noError := rfl
@[simp] theorem resetCore_esticky (s : State) : (resetCore s).esticky = false := rfl
@[simp] theorem resetCore_pending (s : State) : (resetCore s).pending = s.pending := rfl
@[simp] theorem resetCore_reply (s : State) : (resetCore s).reply = s.reply := rfl

@[simp] theorem withDin_k (data : Bytes) (s : State) : (withDin data s).k = s.k := rfl
@[simp] theorem withDin_sr (data : Bytes) (s : State) : (withDin data s).sr = s.sr := rfl
@[simp] theorem withDin_cstate (data : Bytes) (s : State) : (withDin data s).cstate = s.cstate := rfl
@[simp] theorem withDin_ikey (data : Bytes) (s : State) : (withDin data s).ikey = s.ikey := rfl
@[simp] theorem withDin_okey (data : Bytes) (s : State) : (withDin data s).okey = s.okey := rfl
@[simp] theorem withDin_hacc (data : Bytes) (s : State) : (withDin data s).hacc = s.hacc := rfl
@[simp] theorem withDin_hstate (data : Bytes) (s : State) : (withDin data s).hstate = s.hstate := rfl
@[simp] theorem withDin_din (data : Bytes) (s : State) : (withDin data s).din = ofBytes 128 data := rfl
@[simp] theorem withDin_dout (data : Bytes) (s : State) : (withDin data s).dout = s.dout := rfl
@[simp] theorem withDin_olen (data : Bytes) (s : State) : (withDin data s).olen = s.olen := rfl
@[simp] theorem withDin_err (data : Bytes) (s : State) : (withDin data s).err = s.err := rfl
@[simp] theorem withDin_esticky (data : Bytes) (s : State) : (withDin data s).esticky = s.esticky := rfl
@[simp] theorem withDin_pending (data : Bytes) (s : State) : (withDin data s).pending = s.pending := rfl
@[simp] theorem withDin_reply (data : Bytes) (s : State) : (withDin data s).reply = s.reply := rfl

@[simp] theorem dinWrite_k (i : Nat) (v : Word) (s : State) : (dinWrite i v s).k = s.k := rfl
@[simp] theorem dinWrite_sr (i : Nat) (v : Word) (s : State) : (dinWrite i v s).sr = s.sr := rfl
@[simp] theorem dinWrite_cstate (i : Nat) (v : Word) (s : State) : (dinWrite i v s).cstate = s.cstate := rfl
@[simp] theorem dinWrite_ikey (i : Nat) (v : Word) (s : State) : (dinWrite i v s).ikey = s.ikey := rfl
@[simp] theorem dinWrite_okey (i : Nat) (v : Word) (s : State) : (dinWrite i v s).okey = s.okey := rfl
@[simp] theorem dinWrite_hacc (i : Nat) (v : Word) (s : State) : (dinWrite i v s).hacc = s.hacc := rfl
@[simp] theorem dinWrite_hstate (i : Nat) (v : Word) (s : State) : (dinWrite i v s).hstate = s.hstate := rfl
@[simp] theorem dinWrite_dout (i : Nat) (v : Word) (s : State) : (dinWrite i v s).dout = s.dout := rfl
@[simp] theorem dinWrite_olen (i : Nat) (v : Word) (s : State) : (dinWrite i v s).olen = s.olen := rfl
@[simp] theorem dinWrite_err (i : Nat) (v : Word) (s : State) : (dinWrite i v s).err = s.err := rfl
@[simp] theorem dinWrite_esticky (i : Nat) (v : Word) (s : State) : (dinWrite i v s).esticky = s.esticky := rfl
@[simp] theorem dinWrite_pending (i : Nat) (v : Word) (s : State) : (dinWrite i v s).pending = s.pending := rfl
@[simp] theorem dinWrite_reply (i : Nat) (v : Word) (s : State) : (dinWrite i v s).reply = s.reply := rfl

end Sys2Proof.Machine
end

