-- ==== Sys2Proof/Laws/HostPort.lean ====
section
/-! SUPPORT. What the operations of the host port can do, said once each. -/

namespace Sys2Proof.Machine

/-- The offsets at which the bus admits a 32-bit access (rules R61 to R63). -/
theorem admitted_iff (off size : Nat) :
    admitted off size = true ↔
      size = 4 ∧ off % 4 = 0 ∧ (off < 0x00C ∨ (0x080 ≤ off ∧ off < 0x140)) := by
  simp [admitted, mapped, and_assoc]

/-- A read in the range of `DOUT` answers its word (rule R65). -/
theorem memRead_dout (off : Nat) (s : State) (h : 0x100 ≤ off) :
    memRead off s = doutWord s (off - 0x100) := by
  unfold memRead
  rw [if_neg (by omega), if_neg (by omega), if_neg (by omega), if_neg (by omega)]

/-- The word of four bytes of `DOUT`, as a sum (rule R65). -/
theorem doutWord_toNat (s : State) (i : Nat) (h : i + 3 < 64) :
    (doutWord s i).toNat = s.dout[i].toNat + 2 ^ 8 * s.dout[i + 1].toNat +
      2 ^ 16 * s.dout[i + 2].toNat + 2 ^ 24 * s.dout[i + 3].toNat := by
  have get : ∀ (j : Nat) (hj : j < 64), s.dout[j]?.getD 0#8 = s.dout[j] := fun j hj => by simp [hj]
  rw [doutWord, le32_toNat, get i (by omega), get (i + 1) (by omega), get (i + 2) (by omega),
    get (i + 3) (by omega)]
  rfl

/-- A command word either is illegal or runs its command (rule R94). -/
theorem execWord_cases (w : Word) (s : State) :
    (∃ c, decode w = .error c ∧ execWord w s = .next (raise .illegalCommand s)) ∨
    ∃ i, decode w = .ok i ∧ execWord w s = exec i s := by
  unfold execWord
  split
  · exact .inl ⟨_, ‹_›, rfl⟩
  · exact .inr ⟨_, ‹_›, rfl⟩

/-- `DIN` after a word write, byte by byte (rule R64). -/
theorem dinWrite_din_getElem (i : Nat) (v : Word) (s : State) (j : Nat) (hj : j < 128) :
    (dinWrite i v s).din[j] =
      if j = i then v.extractLsb' 0 8 else if j = i + 1 then v.extractLsb' 8 8
      else if j = i + 2 then v.extractLsb' 16 8 else if j = i + 3 then v.extractLsb' 24 8
      else s.din[j] := by
  simp only [dinWrite, Vector.getElem_setIfInBounds, bytes32le_getElem, eq_comm (b := j)]
  split_ifs <;> first | rfl | omega

/-- Every way a host move answers a next state. -/
theorem hostMove_next {m : HostMove} {s t : State} (h : hostMove m s = .next t) :
    (∃ off, m = .read off 4 ∧ admitted off 4 = true ∧
      t = { s with reply := .data (memRead off s) }) ∨
    (∃ v, m = .write 0x000 4 v ∧ execWord v { s with reply := .ack } = .next t) ∨
    (∃ off v, m = .write off 4 v ∧ off ≠ 0x000 ∧ admitted off 4 = true ∧
      t = memWrite off v { s with reply := .ack }) ∨
    (m = .hardReset ∧ t = resetCore { s with reply := .idle }) := by
  have four : ∀ off size, admitted off size = true → size = 4 := fun off size ha =>
    ((admitted_iff off size).1 ha).1
  cases m with
  | read off size =>
    simp only [hostMove] at h
    split at h
    · rename_i ha
      obtain rfl := four off size ha
      exact .inl ⟨off, rfl, ha, (Host.Outcome.next.inj h).symm⟩
    · cases h
  | write off size v =>
    simp only [hostMove] at h
    split at h
    · rename_i ha
      obtain rfl := four off size ha
      split at h
      · rename_i h0
        subst h0
        exact .inr (.inl ⟨v, rfl, h⟩)
      · exact .inr (.inr (.inl ⟨off, v, rfl, ‹_›, ha, (Host.Outcome.next.inj h).symm⟩))
    · cases h
  | hardReset => exact .inr (.inr (.inr ⟨rfl, (Host.Outcome.next.inj h).symm⟩))

/-- A step is idle, or performs the first pending move with the rest left pending. -/
theorem step_next {s t : State} (h : step s = .next t) :
    (s.pending = [] ∧ t = s) ∨
    ∃ m rest, s.pending = m :: rest ∧ hostMove m { s with pending := rest } = .next t := by
  unfold step at h
  split at h
  · exact .inl ⟨‹_›, (Host.Outcome.next.inj h).symm⟩
  · exact .inr ⟨_, _, ‹_›, h⟩

@[simp] theorem runSteps_zero (s : State) : runSteps 0 s = .next s := rfl

/-- A run of one step more: the first step, then the run from its state (rule R286). -/
theorem runSteps_succ {n : Nat} {s t : State} (h : step s = .next t) :
    runSteps (n + 1) s = runSteps n t := by
  have hcore : Sys2Proof.core.step s = .next t := h
  simp only [runSteps, Host.Core.run, hcore]
  rfl

end Sys2Proof.Machine
end

