-- ==== Sys2Proof/Laws/KeyWrap.lean ====
section
/-! SUPPORT. The parts of a joined sequence of blocks and of a joined blob, and the exclusive or as a
chain uses it. -/

namespace Sys2Proof.Machine

/-- The byte of a joined key (rules R9, R186). -/
theorem joinBlocks_getElem (p q r t : Block) (i : Nat) (hi : i < 32) :
    (joinBlocks p q r t)[i] =
      if h : i < 8 then p[i] else if h : i < 16 then q[i - 8]
      else if h : i < 24 then r[i - 16] else t[i - 24] := by
  change (p ++ q ++ r ++ t : Vector Byte (8 + 8 + 8 + 8))[i] = _
  simp only [Vector.getElem_append]
  split_ifs <;> first | rfl | omega

theorem joinBlocks_toList (p q r t : Block) :
    (joinBlocks p q r t).toList = p.toList ++ q.toList ++ r.toList ++ t.toList := by
  change (p ++ q ++ r ++ t : Vector Byte (8 + 8 + 8 + 8)).toList = _
  simp only [Vector.toList_append]

theorem slice_joinBlocks (p q r t : Block) :
    slice (joinBlocks p q r t) 0 8 = p ∧ slice (joinBlocks p q r t) 8 8 = q ∧
      slice (joinBlocks p q r t) 16 8 = r ∧ slice (joinBlocks p q r t) 24 8 = t := by
  refine ⟨?_, ?_, ?_, ?_⟩ <;> ext i hi : 1 <;> rw [slice_getElem, joinBlocks_getElem]
  · rw [dif_pos (by omega)]
    congr 1
    omega
  · rw [dif_neg (by omega), dif_pos (by omega)]
    congr 1
    omega
  · rw [dif_neg (by omega), dif_neg (by omega), dif_pos (by omega)]
    congr 1
    omega
  · rw [dif_neg (by omega), dif_neg (by omega), dif_neg (by omega)]
    congr 1
    omega

/-- A key is its four blocks joined. -/
theorem joinBlocks_slices (s : Key) :
    joinBlocks (slice s 0 8) (slice s 8 8) (slice s 16 8) (slice s 24 8) = s := by
  ext i hi : 1
  rw [joinBlocks_getElem]
  simp only [slice_getElem]
  split_ifs <;> congr 1 <;> omega

/-- The byte of a joined blob (rule R183). -/
theorem joinBlob_getElem (method : Byte) (ukm : Block) (e : Key) (t : Block) (i : Nat) (hi : i < 49) :
    (joinBlob method ukm e t)[i] =
      if h : i < 1 then method else if h : i < 9 then ukm[i - 1]
      else if h : i < 41 then e[i - 9] else t[i - 41] := by
  change (#v[method] ++ ukm ++ e ++ t : Vector Byte (1 + 8 + 32 + 8))[i] = _
  simp only [Vector.getElem_append]
  split_ifs <;> first | rfl | omega | skip
  obtain rfl : i = 0 := by omega
  rfl

theorem joinBlob_toList (method : Byte) (ukm : Block) (e : Key) (t : Block) :
    (joinBlob method ukm e t).toList = method :: (ukm.toList ++ e.toList ++ t.toList) := by
  change (#v[method] ++ ukm ++ e ++ t : Vector Byte (1 + 8 + 32 + 8)).toList = _
  simp only [Vector.toList_append]
  rfl

@[simp] theorem blobMethod_joinBlob (method : Byte) (ukm : Block) (e : Key) (t : Block) :
    blobMethod (joinBlob method ukm e t) = method := by
  rw [blobMethod, joinBlob_getElem]
  rfl

@[simp] theorem blobUkm_joinBlob (method : Byte) (ukm : Block) (e : Key) (t : Block) :
    blobUkm (joinBlob method ukm e t) = ukm := by
  ext i hi : 1
  rw [blobUkm, slice_getElem, joinBlob_getElem, dif_neg (by omega), dif_pos (by omega)]
  congr 1
  omega

@[simp] theorem blobCipher_joinBlob (method : Byte) (ukm : Block) (e : Key) (t : Block) :
    blobCipher (joinBlob method ukm e t) = e := by
  ext i hi : 1
  rw [blobCipher, slice_getElem, joinBlob_getElem, dif_neg (by omega), dif_neg (by omega),
    dif_pos (by omega)]
  congr 1
  omega

@[simp] theorem blobTag_joinBlob (method : Byte) (ukm : Block) (e : Key) (t : Block) :
    blobTag (joinBlob method ukm e t) = t := by
  ext i hi : 1
  rw [blobTag, slice_getElem, joinBlob_getElem, dif_neg (by omega), dif_neg (by omega),
    dif_neg (by omega)]
  congr 1
  omega

/-- The exclusive or with one sequence keeps different sequences different (rule R194). -/
theorem xorV_right_inj {n : Nat} {a b c : Vector Byte n} (h : xorV a c = xorV b c) : a = b := by
  rw [← xorV_self_right a c, h, xorV_self_right]

theorem xorV_comm {n : Nat} (a b : Vector Byte n) : xorV a b = xorV b a := by
  ext i hi : 1
  simp [BitVec.xor_comm]

theorem xorV_left_inj {n : Nat} {a b c : Vector Byte n} (h : xorV c a = xorV c b) : a = b := by
  rw [xorV_comm c a, xorV_comm c b] at h
  exact xorV_right_inj h

end Sys2Proof.Machine
end

