-- ==== Sys2Proof/Laws/Meanings.lean ====
section
/-! SUPPORT. What each meaning can do, said once: if it answers `next t`, one of the cases of its rule
holds and `t` is that case's state. No meaning answers anything but `next`. -/

namespace Sys2Proof.Machine

theorem execCtxInit_next {len : Byte} {s t : State} (h : execCtxInit len s = .next t) :
    (s.cstate ≠ .cEmpty ∧ t = raise .badState s) ∨
    (s.cstate = .cEmpty ∧ len ≠ 32#8 ∧ t = raise .invalidSize s) ∨
    (s.cstate = .cEmpty ∧ len = 32#8 ∧
      t = succeed (wipeDin
        { s with k := keyWords (keyOperand s), sr := zeros 8, cstate := .cKeyed })) := by
  unfold execCtxInit at h
  split at h
  · exact .inl ⟨‹_›, (Host.Outcome.next.inj h).symm⟩
  · split at h
    · exact .inr (.inl ⟨not_not.1 ‹_›, ‹_›, (Host.Outcome.next.inj h).symm⟩)
    · exact .inr (.inr ⟨not_not.1 ‹_›, not_not.1 ‹_›, (Host.Outcome.next.inj h).symm⟩)

theorem execCtxWipe_next {len : Byte} {s t : State} (h : execCtxWipe len s = .next t) :
    (len ≠ 0#8 ∧ t = raise .invalidSize s) ∨
    (len = 0#8 ∧ t = succeed (dropCipherContext s)) := by
  unfold execCtxWipe at h
  split at h
  · exact .inl ⟨‹_›, (Host.Outcome.next.inj h).symm⟩
  · exact .inr ⟨not_not.1 ‹_›, (Host.Outcome.next.inj h).symm⟩

theorem execBlkEnc_next {len : Byte} {s t : State} (h : execBlkEnc len s = .next t) :
    (s.cstate ≠ .cKeyed ∧ t = raise .badState s) ∨
    (s.cstate = .cKeyed ∧ len ≠ 8#8 ∧ t = raise .invalidSize s) ∨
    (s.cstate = .cKeyed ∧ len = 8#8 ∧
      t = succeed (setOut (encWords Config.sbox s.k (blockOperand s)).toList s)) := by
  unfold execBlkEnc at h
  split at h
  · exact .inl ⟨‹_›, (Host.Outcome.next.inj h).symm⟩
  · split at h
    · exact .inr (.inl ⟨not_not.1 ‹_›, ‹_›, (Host.Outcome.next.inj h).symm⟩)
    · exact .inr (.inr ⟨not_not.1 ‹_›, not_not.1 ‹_›, (Host.Outcome.next.inj h).symm⟩)

theorem execBlkDec_next {len : Byte} {s t : State} (h : execBlkDec len s = .next t) :
    (s.cstate ≠ .cKeyed ∧ t = raise .badState s) ∨
    (s.cstate = .cKeyed ∧ len ≠ 8#8 ∧ t = raise .invalidSize s) ∨
    (s.cstate = .cKeyed ∧ len = 8#8 ∧
      t = succeed (setOut (decWords Config.sbox s.k (blockOperand s)).toList s)) := by
  unfold execBlkDec at h
  split at h
  · exact .inl ⟨‹_›, (Host.Outcome.next.inj h).symm⟩
  · split at h
    · exact .inr (.inl ⟨not_not.1 ‹_›, ‹_›, (Host.Outcome.next.inj h).symm⟩)
    · exact .inr (.inr ⟨not_not.1 ‹_›, not_not.1 ‹_›, (Host.Outcome.next.inj h).symm⟩)

theorem execCfbStart_next {dir : Dir} {len : Byte} {s t : State}
    (h : execCfbStart dir len s = .next t) :
    (s.cstate ≠ .cKeyed ∧ t = raise .badState s) ∨
    (s.cstate = .cKeyed ∧ len ≠ 8#8 ∧ t = raise .invalidSize s) ∨
    (s.cstate = .cKeyed ∧ len = 8#8 ∧
      t = succeed { s with sr := blockOperand s, cstate := streamState dir }) := by
  unfold execCfbStart at h
  split at h
  · exact .inl ⟨‹_›, (Host.Outcome.next.inj h).symm⟩
  · split at h
    · exact .inr (.inl ⟨not_not.1 ‹_›, ‹_›, (Host.Outcome.next.inj h).symm⟩)
    · exact .inr (.inr ⟨not_not.1 ‹_›, not_not.1 ‹_›, (Host.Outcome.next.inj h).symm⟩)

theorem execCfbData_next {len : Byte} {s t : State} (h : execCfbData len s = .next t) :
    (streamDir s.cstate = none ∧ t = raise .badState s) ∨
    ∃ dir, streamDir s.cstate = some dir ∧
      (((len = 0#8 ∨ 64 < len.toNat) ∧ t = raise .invalidSize s) ∨
       (0 < len.toNat ∧ len.toNat ≤ 64 ∧ len.toNat % 8 = 0 ∧
        t = succeed
          { setOut (cfbRun Config.sbox dir s.k s.sr (inBytes len.toNat s)).1 s with
            sr := (cfbRun Config.sbox dir s.k s.sr (inBytes len.toNat s)).2 }) ∨
       (0 < len.toNat ∧ len.toNat ≤ 64 ∧ len.toNat % 8 ≠ 0 ∧
        t = succeed (closeStream
          (setOut (cfbRun Config.sbox dir s.k s.sr (inBytes len.toNat s)).1 s)))) := by
  have hpos : ¬ len = 0#8 → 0 < len.toNat := fun hne =>
    Nat.pos_of_ne_zero fun hz => hne (BitVec.eq_of_toNat_eq (by simpa using hz))
  unfold execCfbData at h
  split at h
  · exact .inl ⟨‹_›, (Host.Outcome.next.inj h).symm⟩
  · rename_i dir hd
    refine .inr ⟨dir, hd, ?_⟩
    split at h
    · exact .inl ⟨‹_›, (Host.Outcome.next.inj h).symm⟩
    · rename_i hlen
      rw [not_or, not_lt] at hlen
      simp only at h
      split at h
      · exact .inr (.inl ⟨hpos hlen.1, hlen.2, ‹_›, (Host.Outcome.next.inj h).symm⟩)
      · exact .inr (.inr ⟨hpos hlen.1, hlen.2, ‹_›, (Host.Outcome.next.inj h).symm⟩)

theorem execCfbEnd_next {len : Byte} {s t : State} (h : execCfbEnd len s = .next t) :
    (streamDir s.cstate = none ∧ t = raise .badState s) ∨
    ∃ dir, streamDir s.cstate = some dir ∧
      ((len ≠ 0#8 ∧ t = raise .invalidSize s) ∨
       (len = 0#8 ∧ t = succeed (closeStream s))) := by
  unfold execCfbEnd at h
  split at h
  · exact .inl ⟨‹_›, (Host.Outcome.next.inj h).symm⟩
  · rename_i dir hd
    refine .inr ⟨dir, hd, ?_⟩
    split at h
    · exact .inl ⟨‹_›, (Host.Outcome.next.inj h).symm⟩
    · exact .inr ⟨not_not.1 ‹_›, (Host.Outcome.next.inj h).symm⟩

theorem execKwEncode_next {method len : Byte} {s t : State}
    (h : execKwEncode method len s = .next t) :
    (methodOf method = none ∧ t = raise .unsupportedMethod s) ∨
    ∃ m, methodOf method = some m ∧
      ((len ≠ 72#8 ∧ t = raise .invalidSize s) ∨
       (len = 72#8 ∧
        t = succeed (wipeDin (setOut (kwEncodeBlob Config.sbox m (kekOperand s) (ukmOperand s)
          (sessionKeyOperand s)).toList s)))) := by
  unfold execKwEncode at h
  split at h
  · exact .inl ⟨‹_›, (Host.Outcome.next.inj h).symm⟩
  · rename_i m hm
    refine .inr ⟨m, hm, ?_⟩
    split at h
    · exact .inl ⟨‹_›, (Host.Outcome.next.inj h).symm⟩
    · exact .inr ⟨not_not.1 ‹_›, (Host.Outcome.next.inj h).symm⟩

theorem execKwDecode_next {method len : Byte} {s t : State}
    (h : execKwDecode method len s = .next t) :
    (methodOf method = none ∧ t = raise .unsupportedMethod s) ∨
    ∃ m, methodOf method = some m ∧
      ((len ≠ 81#8 ∧ t = raise .invalidSize s) ∨
       (len = 81#8 ∧ kwDecodeBlob Config.sbox m (kekOperand s) (blobOperand s) = none ∧
        t = raiseIntegrity s) ∨
       ∃ key, len = 81#8 ∧
        kwDecodeBlob Config.sbox m (kekOperand s) (blobOperand s) = some key ∧
        t = succeed (setOut key.toList (wipeDin s))) := by
  unfold execKwDecode at h
  split at h
  · exact .inl ⟨‹_›, (Host.Outcome.next.inj h).symm⟩
  · rename_i m hm
    refine .inr ⟨m, hm, ?_⟩
    split at h
    · exact .inl ⟨‹_›, (Host.Outcome.next.inj h).symm⟩
    · split at h
      · exact .inr (.inl ⟨not_not.1 ‹_›, ‹_›, (Host.Outcome.next.inj h).symm⟩)
      · exact .inr (.inr ⟨_, not_not.1 ‹_›, ‹_›, (Host.Outcome.next.inj h).symm⟩)

theorem execHmacInit_next {len : Byte} {s t : State} (h : execHmacInit len s = .next t) :
    ((s.hstate = .hInitialized ∨ s.hstate = .hAccumulating) ∧ t = raise .badState s) ∨
    (¬ (s.hstate = .hInitialized ∨ s.hstate = .hAccumulating) ∧ 128 < len.toNat ∧
      t = raise .invalidSize s) ∨
    (¬ (s.hstate = .hInitialized ∨ s.hstate = .hAccumulating) ∧ len.toNat ≤ 128 ∧
      t = succeed (wipeDin
        { s with
          ikey := hmacInnerKey (hmacK0 Config.hash (inBytes len.toNat s))
          okey := hmacOuterKey (hmacK0 Config.hash (inBytes len.toNat s))
          hacc := (hmacInnerKey (hmacK0 Config.hash (inBytes len.toNat s))).toList
          hstate := .hInitialized })) := by
  unfold execHmacInit at h
  split at h
  · exact .inl ⟨‹_›, (Host.Outcome.next.inj h).symm⟩
  · split at h
    · exact .inr (.inl ⟨‹_›, ‹_›, (Host.Outcome.next.inj h).symm⟩)
    · exact .inr (.inr ⟨‹_›, not_lt.1 ‹_›, (Host.Outcome.next.inj h).symm⟩)

theorem execHmacUpdate_next {len : Byte} {s t : State} (h : execHmacUpdate len s = .next t) :
    (∃ e, hmacLiveError s.hstate = some e ∧ t = raise e s) ∨
    (hmacLiveError s.hstate = none ∧ 128 < len.toNat ∧ t = raise .invalidSize s) ∨
    (hmacLiveError s.hstate = none ∧ len.toNat ≤ 128 ∧
      t = succeed { s with hacc := s.hacc ++ inBytes len.toNat s, hstate := .hAccumulating }) := by
  unfold execHmacUpdate at h
  split at h
  · exact .inl ⟨_, ‹_›, (Host.Outcome.next.inj h).symm⟩
  · split at h
    · exact .inr (.inl ⟨‹_›, ‹_›, (Host.Outcome.next.inj h).symm⟩)
    · exact .inr (.inr ⟨‹_›, not_lt.1 ‹_›, (Host.Outcome.next.inj h).symm⟩)

theorem execHmacFinal_next {len : Byte} {s t : State} (h : execHmacFinal len s = .next t) :
    (∃ e, hmacLiveError s.hstate = some e ∧ t = raise e s) ∨
    (hmacLiveError s.hstate = none ∧ len ≠ 0#8 ∧ t = raise .invalidSize s) ∨
    (hmacLiveError s.hstate = none ∧ len = 0#8 ∧
      t = succeed (dropHmacContext .hFinalized
        (setOut (hmacDigest Config.hash s.okey s.hacc).toList s))) := by
  unfold execHmacFinal at h
  split at h
  · exact .inl ⟨_, ‹_›, (Host.Outcome.next.inj h).symm⟩
  · split at h
    · exact .inr (.inl ⟨‹_›, ‹_›, (Host.Outcome.next.inj h).symm⟩)
    · exact .inr (.inr ⟨‹_›, not_not.1 ‹_›, (Host.Outcome.next.inj h).symm⟩)

theorem execHmacWipe_next {len : Byte} {s t : State} (h : execHmacWipe len s = .next t) :
    (len ≠ 0#8 ∧ t = raise .invalidSize s) ∨
    (len = 0#8 ∧ t = succeed (dropHmacContext .hNone s)) := by
  unfold execHmacWipe at h
  split at h
  · exact .inl ⟨‹_›, (Host.Outcome.next.inj h).symm⟩
  · exact .inr ⟨not_not.1 ‹_›, (Host.Outcome.next.inj h).symm⟩

theorem execIoWipe_next {len : Byte} {s t : State} (h : execIoWipe len s = .next t) :
    (len ≠ 0#8 ∧ t = raise .invalidSize s) ∨
    (len = 0#8 ∧ t = succeed (setOut [] (wipeDin s))) := by
  unfold execIoWipe at h
  split at h
  · exact .inl ⟨‹_›, (Host.Outcome.next.inj h).symm⟩
  · exact .inr ⟨not_not.1 ‹_›, (Host.Outcome.next.inj h).symm⟩

theorem execSoftReset_next {len : Byte} {s t : State} (h : execSoftReset len s = .next t) :
    (len ≠ 0#8 ∧ t = raise .invalidSize s) ∨
    (len = 0#8 ∧ t = succeed (resetCore s)) := by
  unfold execSoftReset at h
  split at h
  · exact .inl ⟨‹_›, (Host.Outcome.next.inj h).symm⟩
  · exact .inr ⟨not_not.1 ‹_›, (Host.Outcome.next.inj h).symm⟩

end Sys2Proof.Machine
end

