-- ==== Sys2Proof/Laws/Operands.lean ====
section
/-! SUPPORT. What the operand forms read, what a host's LOAD gives them, and the method and stream
codes both ways. -/

namespace Sys2Proof.Machine

@[simp] theorem dinField_getElem (off n : Nat) (s : State) (h : off + n ≤ 128) (i : Nat)
    (hi : i < n) : (dinField off n s h)[i] = s.din[off + i]'(by omega) := by
  simp [dinField]

theorem keyOperand_eq (s : State) : keyOperand s = slice s.din 0 32 := rfl
theorem kekOperand_eq (s : State) : kekOperand s = slice s.din 0 32 := rfl
theorem sessionKeyOperand_eq (s : State) : sessionKeyOperand s = slice s.din 32 32 := rfl
theorem ukmOperand_eq (s : State) : ukmOperand s = slice s.din 64 8 := rfl
theorem blobOperand_eq (s : State) : blobOperand s = slice s.din 32 49 := rfl

/-- `In(n)` has n bytes (rule R76). -/
theorem inBytes_length (n : Nat) (s : State) (h : n ≤ 128) : (inBytes n s).length = n := by
  simp [inBytes, h]

/-- A block operand is the first eight bytes of `DIN` (rule R136). -/
theorem blockOperand_eq (s : State) : blockOperand s = ofBytes 8 (s.din.toList.take 8) := by
  ext i hi
  simp [blockOperand, hi]

/-- A command whose `LEN` is the length of what the host loaded reads just that (rules R76, R102). -/
theorem inBytes_withDin (data : Bytes) (s : State) (h : data.length ≤ 128) :
    inBytes (lenOf data).toNat (withDin data s) = data := by
  have hn : data.length % 256 = data.length := Nat.mod_eq_of_lt (by omega)
  apply List.ext_getElem
  · simp [inBytes, lenOf, hn, h]
  · intro i hi hi'
    simp [inBytes, hi']

theorem lenOf_toNat (data : Bytes) (h : data.length ≤ 128) : (lenOf data).toNat = data.length := by
  simp only [lenOf, BitVec.toNat_ofNat]
  omega

/-- A sub-sequence of what the host loaded (rules R102, R182). -/
theorem dinField_withDin (off n : Nat) (data : Bytes) (s : State) (h : off + n ≤ 128) :
    dinField off n (withDin data s) h = ofBytes n (data.drop off) := by
  ext i hi
  simp

@[simp] theorem methodOf_methodCode (m : Method) : methodOf (methodCode m) = some m := by
  cases m <;> rfl

/-- The code read as a method is its own code (rule R99). -/
theorem methodOf_eq_some {code : Byte} {m : Method} (h : methodOf code = some m) :
    code = methodCode m := by
  unfold methodOf at h
  split at h
  · cases h
    assumption
  · split at h
    · cases h
      assumption
    · cases h

/-- A code outside the closed set is no method (rule R99). -/
theorem methodOf_eq_none {code : Byte} :
    methodOf code = none ↔ code ≠ 1#8 ∧ code ≠ 2#8 := by
  unfold methodOf
  split
  · simp [*]
  · split <;> simp [*]

@[simp] theorem streamDir_streamState (dir : Dir) : streamDir (streamState dir) = some dir := by
  cases dir <;> rfl

theorem streamDir_eq_some {c : CState} {dir : Dir} (h : streamDir c = some dir) :
    c = streamState dir := by
  cases c <;> cases h <;> rfl

theorem streamDir_eq_none {c : CState} : streamDir c = none ↔ c = .cEmpty ∨ c = .cKeyed := by
  cases c <;> simp [streamDir]

end Sys2Proof.Machine
end

