-- ==== Sys2Proof/Laws/Ops.lean ====
section
/-! SUPPORT. What the shared operations leave, beyond the field lemmas of Laws/State.lean. -/

namespace Sys2Proof.Machine

/-- The length that `SetOut` records is the result's (rules R31, R76). -/
theorem setOut_olen_toNat (out : Bytes) (s : State) (h : out.length ≤ 64) :
    (setOut out s).olen.toNat = out.length := by
  simp only [setOut_olen, BitVec.toNat_ofNat]
  omega

/-- `SetOut` leaves no byte of an earlier result (rule R30). -/
theorem setOut_dout_above (out : Bytes) (s : State) (i : Fin 64) (h : out.length ≤ i.val) :
    (setOut out s).dout[i] = 0#8 := by
  simp [List.getElem?_eq_none h]

/-- The valid bytes of `DOUT` are the result (rules R30, R76). -/
theorem setOut_dout_take (out : Bytes) (s : State) (h : out.length ≤ 64) :
    (setOut out s).dout.toList.take out.length = out := by
  apply List.ext_getElem
  · simp [h]
  · intro i _ hi
    simp [hi]

/-- The two pads differ in every byte by 0x6A (rule R40, item 4). -/
theorem xorV_pads (k0 : Key) :
    xorV (hmacInnerKey k0) (hmacOuterKey k0) = Vector.replicate 32 0x6A#8 := by
  ext i hi : 1
  simp only [hmacInnerKey, hmacOuterKey, xorV_getElem, Vector.getElem_replicate]
  rw [BitVec.xor_comm k0[i] Config.opad, ← BitVec.xor_assoc, BitVec.xor_assoc k0[i] Config.ipad,
    BitVec.xor_comm k0[i], BitVec.xor_assoc, BitVec.xor_self]
  rfl

end Sys2Proof.Machine
end

