-- ==== Sys2Proof/Laws/PerInstr.lean ====
section
/-! SUPPORT. The family of statements made for every command: the word the encoder makes is well formed,
by match and mask of the opcode table (rules R95, R101). -/

namespace Sys2Proof.Laws.EncodedWordWellFormed

/-- The command's word fits the table. -/
def Statement (i : Instr) : Prop := wordWellFormed (encode i) = true

/-- The word of a command, masked with everything but `LEN`, has the command's other fields. -/
theorem encode_mask (i : Instr) :
    encode i &&& 0xFF00FFFF#32 = 0#8 ++ 0#8 ++ i.arg ++ i.opcode := by
  apply BitVec.eq_of_getLsbD_eq
  intro j hj
  change ((0#8 ++ i.len ++ i.arg ++ i.opcode) &&& (0xFF#8 ++ 0x00#8 ++ 0xFF#8 ++ 0xFF#8)).getLsbD j
    = (0#8 ++ 0#8 ++ i.arg ++ i.opcode).getLsbD j
  simp only [BitVec.getLsbD_and, BitVec.getLsbD_append]
  by_cases h1 : j < 8
  · interval_cases j <;> simp
  · by_cases h2 : j < 16
    · interval_cases j <;> simp
    · by_cases h3 : j < 24
      · interval_cases j <;> simp
      · interval_cases j <;> simp

/-- A word whose row is the given one is well formed. -/
theorem of_row {w : Word} {r : OpcodeRow} (hr : r ∈ opcodeTable) (h : w &&& r.mask = r.pattern) :
    wordWellFormed w = true :=
  List.any_eq_true.2 ⟨r, hr, by simp [OpcodeRow.selects, h]⟩

/-- The word of a key-transport command, masked with `RSV` and `OPC` alone. -/
theorem encode_mask_opcode (i : Instr) : encode i &&& 0xFF0000FF#32 = 0#24 ++ i.opcode := by
  have h : encode i &&& 0xFF0000FF#32 = (encode i &&& 0xFF00FFFF#32) &&& 0xFF0000FF#32 := by
    rw [BitVec.and_assoc]
    rfl
  rw [h, encode_mask]
  apply BitVec.eq_of_getLsbD_eq
  intro j hj
  change ((0#8 ++ 0#8 ++ i.arg ++ i.opcode) &&& (0xFF#8 ++ 0x00#8 ++ 0x00#8 ++ 0xFF#8)).getLsbD j
    = (0#24 ++ i.opcode).getLsbD j
  simp only [BitVec.getLsbD_and, BitVec.getLsbD_append]
  by_cases h1 : j < 8
  · interval_cases j <;> simp
  · interval_cases j <;> simp

/-- A command whose `ARG` and `OPC` put together are the row's pattern is well formed, for a row that
fixes everything but `LEN`. -/
theorem of_fixed_arg {i : Instr} {r : OpcodeRow} (hr : r ∈ opcodeTable) (hm : r.mask = 0xFF00FFFF#32)
    (hp : 0#8 ++ 0#8 ++ i.arg ++ i.opcode = r.pattern) : Statement i :=
  of_row hr (by rw [hm, encode_mask]; exact hp)

/-- A command whose `OPC` is the row's pattern is well formed, for a row that fixes `RSV` and `OPC`
alone. -/
theorem of_free_arg {i : Instr} {r : OpcodeRow} (hr : r ∈ opcodeTable) (hm : r.mask = 0xFF0000FF#32)
    (hp : 0#24 ++ i.opcode = r.pattern) : Statement i :=
  of_row hr (by rw [hm, encode_mask_opcode]; exact hp)

theorem ctxInit (len : Byte) : Statement (.ctxInit len) :=
  of_fixed_arg (r := ⟨"CTX_INIT", 0x00000001, 0xFF00FFFF⟩) (by decide) rfl
    (by simp only [Instr.arg, Instr.opcode]; decide)
theorem ctxWipe (len : Byte) : Statement (.ctxWipe len) :=
  of_fixed_arg (r := ⟨"CTX_WIPE", 0x00000002, 0xFF00FFFF⟩) (by decide) rfl
    (by simp only [Instr.arg, Instr.opcode]; decide)
theorem blkEnc (len : Byte) : Statement (.blkEnc len) :=
  of_fixed_arg (r := ⟨"BLK_ENC", 0x00000010, 0xFF00FFFF⟩) (by decide) rfl
    (by simp only [Instr.arg, Instr.opcode]; decide)
theorem blkDec (len : Byte) : Statement (.blkDec len) :=
  of_fixed_arg (r := ⟨"BLK_DEC", 0x00000011, 0xFF00FFFF⟩) (by decide) rfl
    (by simp only [Instr.arg, Instr.opcode]; decide)
theorem cfbStart (dir : Dir) (len : Byte) : Statement (.cfbStart dir len) := by
  refine of_row (r := ⟨"CFB_START", 0x00000020, 0xFF00FEFF⟩) (by decide) ?_
  have h : encode (.cfbStart dir len) &&& 0xFF00FEFF#32 =
      (encode (.cfbStart dir len) &&& 0xFF00FFFF#32) &&& 0xFF00FEFF#32 := by
    rw [BitVec.and_assoc]
    rfl
  refine h.trans ?_
  rw [encode_mask]
  cases dir <;> simp only [Instr.arg, Instr.opcode] <;> decide
theorem cfbData (len : Byte) : Statement (.cfbData len) :=
  of_fixed_arg (r := ⟨"CFB_DATA", 0x00000021, 0xFF00FFFF⟩) (by decide) rfl
    (by simp only [Instr.arg, Instr.opcode]; decide)
theorem cfbEnd (len : Byte) : Statement (.cfbEnd len) :=
  of_fixed_arg (r := ⟨"CFB_END", 0x00000022, 0xFF00FFFF⟩) (by decide) rfl
    (by simp only [Instr.arg, Instr.opcode]; decide)
theorem kwEncode (method len : Byte) : Statement (.kwEncode method len) :=
  of_free_arg (r := ⟨"KW_ENCODE", 0x00000030, 0xFF0000FF⟩) (by decide) rfl
    (by simp only [Instr.opcode]; decide)
theorem kwDecode (method len : Byte) : Statement (.kwDecode method len) :=
  of_free_arg (r := ⟨"KW_DECODE", 0x00000031, 0xFF0000FF⟩) (by decide) rfl
    (by simp only [Instr.opcode]; decide)
theorem hmacInit (len : Byte) : Statement (.hmacInit len) :=
  of_fixed_arg (r := ⟨"HMAC_INIT", 0x00000040, 0xFF00FFFF⟩) (by decide) rfl
    (by simp only [Instr.arg, Instr.opcode]; decide)
theorem hmacUpdate (len : Byte) : Statement (.hmacUpdate len) :=
  of_fixed_arg (r := ⟨"HMAC_UPDATE", 0x00000041, 0xFF00FFFF⟩) (by decide) rfl
    (by simp only [Instr.arg, Instr.opcode]; decide)
theorem hmacFinal (len : Byte) : Statement (.hmacFinal len) :=
  of_fixed_arg (r := ⟨"HMAC_FINAL", 0x00000042, 0xFF00FFFF⟩) (by decide) rfl
    (by simp only [Instr.arg, Instr.opcode]; decide)
theorem hmacWipe (len : Byte) : Statement (.hmacWipe len) :=
  of_fixed_arg (r := ⟨"HMAC_WIPE", 0x00000043, 0xFF00FFFF⟩) (by decide) rfl
    (by simp only [Instr.arg, Instr.opcode]; decide)
theorem ioWipe (len : Byte) : Statement (.ioWipe len) :=
  of_fixed_arg (r := ⟨"IO_WIPE", 0x00000050, 0xFF00FFFF⟩) (by decide) rfl
    (by simp only [Instr.arg, Instr.opcode]; decide)
theorem softReset (len : Byte) : Statement (.softReset len) :=
  of_fixed_arg (r := ⟨"SOFT_RESET", 0x0000007F, 0xFF00FFFF⟩) (by decide) rfl
    (by simp only [Instr.arg, Instr.opcode]; decide)

end Sys2Proof.Laws.EncodedWordWellFormed
end

