-- ==== Sys2Proof/Tests/Slice0.lean ====
section
/-! SUPPORT. Tests of one step or one function each, with the values of the spec's test vectors (groups T3 to
T14 of its test file) and of its rules' examples, and for every obligation with hypotheses a witness that
meets them. -/

namespace Sys2Proof.Tests
open Sys2Proof Sys2Proof.Machine

/-! ### Fixtures -/

/-- The table `SBOX_T` of group T3. -/
def sboxT : SBox := fun i x => BitVec.ofNat 4 (7 * x.toNat + 3 * i.val + 5)

/-- The table `SBOX_ID` of group T3. -/
def sboxId : SBox := fun _ x => x

/-- One byte absorbed by `TESTH` at position `j` (group T4). -/
def testHashByte (s : List Nat) (j m : Nat) : List Nat :=
  s.set (j % 32) ((s.getD (j % 32) 0 * 31 + m + j % 256 + s.getD ((j + 31) % 32) 0) % 256)

/-- The bytes absorbed by `TESTH` from position `j` on (group T4). -/
def testHashLoop : List Nat → Nat → List Nat → List Nat
  | s, _, [] => s
  | s, j, m :: rest => testHashLoop (testHashByte s j m) (j + 1) rest

/-- The stand-in hash `TESTH` of group T4. -/
def testHash : HashFn := fun m =>
  ofBytes 32 ((testHashLoop (List.range 32) 0 (m.map (·.toNat))).zipIdx.map fun sp =>
    BitVec.ofNat 8 sp.1 ^^^ BitVec.ofNat 8 ((m.length + sp.2) % 256))

/-- `n` bytes counting up from `b`. -/
def countUp (b n : Nat) : Bytes := (List.range n).map fun i => BitVec.ofNat 8 (b + i)

/-- The bytes of a number, its first byte the most significant: how the vectors are printed. -/
def hexBytes (n v : Nat) : Bytes :=
  (List.range n).map fun i => BitVec.ofNat 8 (v / 2 ^ (8 * (n - 1 - i)))

/-- `KEY_A` of group T7. -/
def keyA : Key := ofBytes 32 (countUp 0 32)

/-- `BLK_A` of group T7. -/
def blkA : Block := ofBytes 8 (hexBytes 8 0x0123456789ABCDEF)

/-- The IV of group T9. -/
def ivA : Block := ofBytes 8 (hexBytes 8 0x1122334455667788)

/-- The key-exchange key of group T10. -/
def kekA : Key := ofBytes 32 (countUp 0xA0 32)

/-- The session key of group T10. -/
def sessionA : Key :=
  ofBytes 32 (hexBytes 32 0x00112233445566778899AABBCCDDEEFF0F1E2D3C4B5A69788796A5B4C3D2E1F0)

/-- The `UKM` of group T10. -/
def ukmA : Block := ofBytes 8 (countUp 1 8)

/-- STATUS after a word written to CMD. -/
def statusAfter (w : Word) (s : State) : Option Word :=
  match execWord w s with
  | .next t => some (statusWord t)
  | .fault _ => none
  | .refused _ => none

/-- A field of the state after a command. -/
def after {α : Type} (i : Instr) (s : State) (f : State → α) : Option α :=
  match exec i s with
  | .next t => some (f t)
  | .fault _ => none
  | .refused _ => none

/-- A field of the state after a step. -/
def afterStep {α : Type} (s : State) (f : State → α) : Option α :=
  match step s with
  | .next t => some (f t)
  | .fault _ => none
  | .refused _ => none

/-- The reset state with a cipher context in a state. -/
def withC (c : CState) : State := { State.reset with cstate := c }

/-- The reset state with an HMAC context in a state. -/
def withH (h : HState) : State := { State.reset with hstate := h }

/-- A finalized HMAC context with its digest's length in `OLEN`. -/
def finalized : State := { State.reset with hstate := .hFinalized, olen := 32 }

/-- The reset state before a host move. -/
def before (m : HostMove) : State := { State.reset with pending := [m] }

/-! ### Well-formedness of command words -/

/-- One ill-formed word for each of the four conditions of rule R97; each is refused. -/
theorem test_wellFormed_refuses :
    wordWellFormed 0x01080010 = false ∧ wordWellFormed 0x00000051 = false ∧
    wordWellFormed 0x00080110 = false ∧ wordWellFormed 0x00080220 = false := by decide

/-- A word of a row with a free `ARG` and of a row with a free `DIR` are accepted (rule R95). -/
theorem test_wellFormed_accepts :
    wordWellFormed 0x00FF0330 = true ∧ wordWellFormed 0x00080120 = true := by decide

/-! ### Decoding: words written out from the fields of rules R90 and R93 -/

theorem test_decode_ctxInit : decode 0b00000000_00100000_00000000_00000001 = .ok (.ctxInit 32) := by
  decide
theorem test_decode_ctxWipe : decode 0b00000000_00000000_00000000_00000010 = .ok (.ctxWipe 0) := by
  decide
theorem test_decode_blkEnc : decode 0b00000000_00001000_00000000_00010000 = .ok (.blkEnc 8) := by
  decide
theorem test_decode_blkDec : decode 0b00000000_00001000_00000000_00010001 = .ok (.blkDec 8) := by
  decide
theorem test_decode_cfbStart :
    decode 0b00000000_00001000_00000000_00100000 = .ok (.cfbStart .enc 8) ∧
    decode 0b00000000_00001000_00000001_00100000 = .ok (.cfbStart .dec 8) := by decide
theorem test_decode_cfbData : decode 0b00000000_00001101_00000000_00100001 = .ok (.cfbData 13) := by
  decide
theorem test_decode_cfbEnd : decode 0b00000000_00000000_00000000_00100010 = .ok (.cfbEnd 0) := by
  decide
theorem test_decode_kwEncode : decode 0b00000000_01001000_00000010_00110000 = .ok (.kwEncode 2 72) := by
  decide
theorem test_decode_kwDecode : decode 0b00000000_01010001_00000001_00110001 = .ok (.kwDecode 1 81) := by
  decide
theorem test_decode_hmacInit : decode 0b00000000_00000011_00000000_01000000 = .ok (.hmacInit 3) := by
  decide
theorem test_decode_hmacUpdate : decode 0b00000000_10000000_00000000_01000001 = .ok (.hmacUpdate 128) := by
  decide
theorem test_decode_hmacFinal : decode 0b00000000_00000000_00000000_01000010 = .ok (.hmacFinal 0) := by
  decide
theorem test_decode_hmacWipe : decode 0b00000000_00000000_00000000_01000011 = .ok (.hmacWipe 0) := by
  decide
theorem test_decode_ioWipe : decode 0b00000000_00000000_00000000_01010000 = .ok (.ioWipe 0) := by
  decide
theorem test_decode_softReset : decode 0b00000000_00000000_00000000_01111111 = .ok (.softReset 0) := by
  decide

/-- The illegal words of group T12. -/
theorem test_decode_illegal :
    decode 0x00000000 = .error .unassignedOpcode ∧ decode 0xFFFFFFFF = .error .reservedBits ∧
    decode 0x01080010 = .error .reservedBits ∧ decode 0x00080110 = .error .argNotZero ∧
    decode 0x00080220 = .error .dirOutOfRange ∧ decode 0x00000051 = .error .unassignedOpcode := by decide

theorem test_decodeTableWord :
    decodeTableWord 32 0x000D0021 = some (.cfbData 13) ∧ decodeTableWord 32 0x00000003 = none := by decide

/-! ### Arithmetic, substitution and rounds: groups T5, T6, T8 -/

theorem test_rotl32 :
    rotl32 0x80000000 11 = 0x00000400 ∧ rotl32 0xFFE00000 11 = 0x000007FF ∧
    rotl32 0x6A472401 11 = 0x39200B52 := by decide

theorem test_sub :
    sub sboxT 0x00000000 = 0xA741EB85 ∧ sub sboxT 0x01234567 = 0xAE26AE26 ∧
    sub sboxT 0xFFFFFFFF = 0x30DA741E := by decide

theorem test_roundF :
    roundF sboxT 0x67452301 0x03020100 = 0x163C6268 ∧ roundF sboxT 0xFFFFFFFF 0x00000001 = 0x0F5C2D3A ∧
    roundF sboxId 0x67452301 0x03020100 = 0x39200B52 := by decide

theorem test_keyWords :
    (keyWords keyA)[0] = 0x03020100 ∧ (keyWords keyA)[1] = 0x07060504 ∧
    (keyWords keyA)[7] = 0x1F1E1D1C := by decide

/-- The evidence for conflict C1: the Feistel round keeps two inputs apart that the literal round joins. -/
theorem test_feistelRound :
    feistelRound sboxId 0 (0x00000000, 5) = (0x00000005, 0x00000000) ∧
    feistelRound sboxId 0 (0xFFFFFFFF, 5) = (0xFFFFFFFA, 0xFFFFFFFF) := by decide

/-! ### Block, stream, key transport and HMAC functions: groups T7, T9, T10, T11 -/

/-- Vectors V4, V2 and V3. -/
theorem test_enc :
    (enc sboxT keyA blkA).toList = hexBytes 8 0xFE931028167535CA ∧
    (enc sboxT (zeros 32) (zeros 8)).toList = hexBytes 8 0xE19FC6C8E371E7EF ∧
    (enc sboxId keyA blkA).toList = hexBytes 8 0x0FF311CFDBB7A4A0 := by decide +kernel

/-- Vector V6 and the decryptions of V3 and V4. -/
theorem test_dec :
    (dec sboxT keyA blkA).toList = hexBytes 8 0xEDFB80BC0A46EF42 ∧
    (dec sboxId keyA blkA).toList = hexBytes 8 0xBA39AD2835452493 ∧
    dec sboxT keyA (ofBytes 8 (hexBytes 8 0xFE931028167535CA)) = blkA := by decide +kernel

/-- Vectors G5, G10 and G5 decrypted (G8). -/
theorem test_cfb :
    cfbEnc sboxT keyA ivA (hexBytes 13 0x48656C6C6F2C20776F726C6421) =
      hexBytes 13 0x4B2D151219F76702B0F0A7419C ∧
    cfbEnc sboxId keyA ivA (hexBytes 13 0x48656C6C6F2C20776F726C6421) =
      hexBytes 13 0xD6F1705C5F311C53F90C65C07B ∧
    cfbDec sboxT keyA ivA (hexBytes 13 0x4B2D151219F76702B0F0A7419C) =
      hexBytes 13 0x48656C6C6F2C20776F726C6421 := by decide +kernel

/-- The register after one full segment, after a partial one (G3, G1), and, in the decryption direction,
the ciphertext that was the input (G8). -/
theorem test_cfb_register :
    (cfbRun sboxT .enc (keyWords keyA) ivA (countUp 0 8)).2.toList = hexBytes 8 0x03497B7D72DE4172 ∧
    (cfbRun sboxT .enc (keyWords keyA) ivA [0]) = ([0x03], zeros 8) ∧
    (cfbRun sboxT .dec (keyWords keyA) ivA (hexBytes 8 0x03497B7D72DE4172)).2.toList =
      hexBytes 8 0x03497B7D72DE4172 := by decide +kernel

/-- The blob of vector K1. -/
def blobK1 : Bytes :=
  hexBytes 9 0x010102030405060708 ++
    hexBytes 32 0x9C341ED7C5053E38415D38B6F30341BD8D27D74B08A86CC6EB3473A94DD1F1AE ++
    hexBytes 8 0xC6B3C650A17E2575

/-- The blob of vector K2. -/
def blobK2 : Bytes :=
  hexBytes 9 0x020102030405060708 ++
    hexBytes 32 0x1F68E4C3EBA123B200033897ACF98966A71170A1B2E3E7985E81CA4F9569B8E0 ++
    hexBytes 8 0x17BDF8DDDD8619A2

/-- Vector K1. -/
theorem test_kwEncodeBlob_plain :
    (kwEncodeBlob sboxT .plain kekA ukmA sessionA).toList = blobK1 := by decide +kernel

/-- Vector K2, the diversification included. -/
theorem test_kwEncodeBlob_diversified :
    (kwEncodeBlob sboxT .diversified kekA ukmA sessionA).toList = blobK2 := by decide +kernel

/-- Vector K1 decoded, and with the wrong key-exchange key (K3). -/
theorem test_kwDecodeBlob :
    kwDecodeBlob sboxT .plain kekA (ofBytes 49 blobK1) = some sessionA ∧
    kwDecodeBlob sboxT .plain (zeros 32) (ofBytes 49 blobK1) = none := by decide +kernel

/-- The stand-in hash on its hand-computed value (group T4). -/
theorem test_testHash :
    (testHash (hexBytes 3 0x616263)).toList =
      hexBytes 32 0x8306A005030D0F0D03050705031D1F1D03050705030D0F0D03050705033D3F3D := by
  decide +kernel

/-- Vector H4, and the key of 33 bytes that is hashed (H5). -/
theorem test_hmac :
    (hmac testHash (countUp 0 32) (hexBytes 3 0x616263)).toList =
      hexBytes 32 0x4C0A0B0965B79DBFCB95AF35A1F3193BFF916301DDFFF587D3EDF70D495B4123 ∧
    (hmacK0 testHash (countUp 0 33)).toList =
      hexBytes 32 0x3162A1C14C28F393EAC61D8D00F487A796EA19A904D08B8BF23E65E5480C2F4F := by
  decide +kernel

/-! ### Commands: states and STATUS words of groups T13 and T19 and of the rules' examples -/

/-- Rule R134's example: the key 00 01 .. 1F. -/
theorem test_ctxInit :
    after (.ctxInit 32) (withDin (countUp 0 32) State.reset) (fun t => (t.k[0], t.k[7], statusWord t)) =
      some (0x03020100, 0x1F1E1D1C, 0x00000100) ∧
    statusAfter 0x00200001 (withC .cKeyed) = some 0x00000115 := by decide
theorem test_ctxInit_size :
    statusAfter 0x001F0001 State.reset = some 0x00000011 ∧
    statusAfter 0x00210001 State.reset = some 0x00000011 := by decide
theorem test_ctxWipe :
    statusAfter 0x00000002 (withC .cStreamEnc) = some 0x00000000 ∧
    statusAfter 0x00000002 State.reset = some 0x00000000 := by decide
theorem test_blkEnc :
    statusAfter 0x00080010 (withC .cKeyed) = some 0x00080100 ∧
    statusAfter 0x00090010 State.reset = some 0x00000015 ∧
    statusAfter 0x00070010 (withC .cKeyed) = some 0x00000111 := by decide
theorem test_blkDec :
    statusAfter 0x00080011 (withC .cKeyed) = some 0x00080100 ∧
    statusAfter 0x00080011 (withC .cStreamDec) = some 0x00000315 ∧
    statusAfter 0x00090111 (withC .cKeyed) = some 0x00000116 := by decide
/-- Rule R166's example: the register holds the IV. -/
theorem test_cfbStart :
    after (.cfbStart .enc 8) (withDin (hexBytes 8 0x1122334455667788) (withC .cKeyed))
      (fun t => (t.sr.toList, statusWord t)) = some (hexBytes 8 0x1122334455667788, 0x00000200) ∧
    statusAfter 0x00080120 (withC .cKeyed) = some 0x00000300 ∧
    statusAfter 0x00000020 (withC .cKeyed) = some 0x00000111 := by decide
theorem test_cfbData :
    after (.cfbData 8) (withC .cStreamEnc) (fun t => t.cstate) = some .cStreamEnc ∧
    after (.cfbData 5) (withC .cStreamDec) (fun t => t.cstate) = some .cKeyed := by decide
theorem test_cfbData_errors :
    statusAfter 0x00080021 (withC .cKeyed) = some 0x00000115 ∧
    statusAfter 0x00410021 (withC .cStreamEnc) = some 0x00000211 ∧
    statusAfter 0x00000021 (withC .cStreamEnc) = some 0x00000211 := by decide
theorem test_cfbEnd :
    statusAfter 0x00000022 (withC .cStreamDec) = some 0x00000100 ∧
    statusAfter 0x00010022 (withC .cStreamDec) = some 0x00000311 ∧
    statusAfter 0x00000022 (withC .cKeyed) = some 0x00000115 := by decide
theorem test_kwEncode :
    statusAfter 0x00480030 State.reset = some 0x00000012 ∧
    statusAfter 0x00030730 (withC .cKeyed) = some 0x00000112 ∧
    statusAfter 0x00030130 (withC .cKeyed) = some 0x00000111 := by decide
/-- A blob whose byte `M` is no method code: IntegrityError (conflict C5), both buffers wiped. -/
theorem test_kwDecode :
    after (.kwDecode 1 81) { State.reset with dout := Vector.replicate 64 7, olen := 64 }
      (fun t => (statusWord t, t.dout[0], t.dout[63])) = some (0x00000013, 0, 0) ∧
    statusAfter 0x00030731 State.reset = some 0x00000012 := by decide
/-- Rule R214's example: the key 6B 65 79. -/
theorem test_hmacInit :
    after (.hmacInit 3) (withDin [0x6B, 0x65, 0x79] State.reset)
      (fun t => (t.ikey.toList.take 5, t.okey.toList.take 5, t.hacc.take 4)) =
      some ([0x5D, 0x53, 0x4F, 0x36, 0x36], [0x37, 0x39, 0x25, 0x5C, 0x5C], [0x5D, 0x53, 0x4F, 0x36]) := by
  decide +kernel
theorem test_hmacInit_status :
    statusAfter 0x00000040 finalized = some 0x00201000 ∧
    statusAfter 0x00000040 (withH .hAccumulating) = some 0x00002015 ∧
    statusAfter 0x00810040 State.reset = some 0x00000011 := by decide
/-- Rule R215's example: a second chunk is appended. -/
theorem test_hmacUpdate :
    after (.hmacUpdate 1) (withDin [0x63] { withH .hAccumulating with hacc := [0x61, 0x62] })
      (fun t => (t.hacc, statusWord t)) = some ([0x61, 0x62, 0x63], 0x00002000) ∧
    after (.hmacUpdate 0) (withH .hInitialized) (fun t => t.hstate) = some .hAccumulating := by decide
theorem test_hmacUpdate_errors :
    statusAfter 0x00C80041 finalized = some 0x00203014 ∧
    statusAfter 0x00810041 (withH .hInitialized) = some 0x00001011 ∧
    statusAfter 0x00800041 (withC .cKeyed) = some 0x00000115 := by decide
theorem test_hmacFinal :
    after (.hmacFinal 0) { withH .hInitialized with hacc := [1], ikey := Vector.replicate 32 1 }
      (fun t => (t.hstate, t.hacc, t.ikey[0])) = some (.hFinalized, [], 0) ∧
    statusAfter 0x00010042 finalized = some 0x00203014 ∧
    statusAfter 0x00010042 State.reset = some 0x00000015 := by decide
theorem test_hmacWipe :
    statusAfter 0x00000043 (withH .hAccumulating) = some 0x00000000 ∧
    statusAfter 0x00010043 (withH .hAccumulating) = some 0x00002011 := by decide
theorem test_ioWipe :
    statusAfter 0x00000050 { State.reset with olen := 32 } = some 0x00000000 ∧
    statusAfter 0x01000050 State.reset = some 0x00000016 ∧
    statusAfter 0x00010050 (withC .cStreamEnc) = some 0x00000211 := by decide
/-- The sticky error is cleared, and is not when the size check fails. -/
theorem test_softReset :
    statusAfter 0x0000007F { withC .cKeyed with esticky := true, err := .error .badState } =
      some 0x00000000 ∧
    statusAfter 0x0001007F (withC .cKeyed) = some 0x00000111 := by decide
/-- Recovery: a command that succeeds after an error clears `ERR` and leaves `ESTICKY` (rule R256). -/
theorem test_recovery :
    statusAfter 0x00000050 { State.reset with err := .error .illegalCommand, esticky := true } =
      some 0x00000010 := by decide

/-! ### The host port: group T14 -/

theorem test_read :
    afterStep (before (.read 0x008 4)) (·.reply) = some (.data 0x20202008) ∧
    afterStep (before (.read 0x004 4)) (·.reply) = some (.data 0) ∧
    afterStep (before (.read 0x13C 4)) (·.reply) = some (.data 0) ∧
    afterStep { before (.read 0x104 4) with dout := ofBytes 64 (hexBytes 8 0xFE931028167535CA) } (·.reply) =
      some (.data 0xCA357516) := by decide
theorem test_din_is_write_only :
    afterStep { before (.read 0x080 4) with din := Vector.replicate 128 0x55 } (·.reply) =
      some (.data 0) := by decide
theorem test_write :
    afterStep (before (.write 0x084 4 0x88776655)) (fun t => (t.din.toList.drop 3).take 6) =
      some [0x00, 0x55, 0x66, 0x77, 0x88, 0x00] ∧
    afterStep (before (.write 0x0FC 4 0x44332211)) (fun t => (t.din[124], t.din[127])) =
      some (0x11, 0x44) := by decide +kernel
theorem test_refused_accesses :
    step (before (.read 0x082 4)) = .fault .busError ∧ step (before (.read 0x00C 4)) = .fault .busError ∧
    step (before (.write 0x07C 4 0)) = .fault .busError ∧ step (before (.read 0x140 4)) = .fault .busError ∧
    step (before (.write 0x080 1 0)) = .fault .busError := ⟨rfl, rfl, rfl, rfl, rfl⟩
theorem test_param : paramWord = 0x20202008 := by decide
theorem test_load : loadMoves [0x6B, 0x65, 0x79] = [.write 0x080 4 0x0079656B] := by decide
/-- The model's cut of an empty message has no chunk; a host may also send it as one empty chunk
(log entry 17). -/
theorem test_empty_update :
    hmacUpdateMoves [] = [] ∧ hmacChunksMoves [[]] = [.write 0x000 4 0x00000041] := by decide
/-- The very next step runs the word that `withFetchWord` places. -/
theorem test_withFetchWord :
    afterStep (State.reset.withFetchWord 32 0x00200001) (·.cstate) = some .cKeyed := by decide

/-! ### Witnesses: concrete states and operands that meet the hypotheses of the obligations -/

theorem test_witness_DecodedWordReencodes : decode 0x00200001 = .ok (.ctxInit 32) := by decide

theorem test_witness_WordSelectsRowByMatchAndMask :
    (⟨"KW_DECODE", 0x00000031, 0xFF0000FF⟩ : OpcodeRow) ∈ opcodeTable ∧
    (0x00510131 : Word) &&& 0xFF0000FF = 0x00000031 ∧
    decode 0x00510131 = .ok (.kwDecode 1 81) := by decide

/-- Each of the four conditions of rule R97, at its boundary, and a word that meets none. -/
theorem test_witness_IllegalWordRaisesIllegalCommand :
    (0x01#8 ≠ 0#8) ∧
    (0x51#8 ∉ ([0x01, 0x02, 0x10, 0x11, 0x20, 0x21, 0x22, 0x30, 0x31, 0x40, 0x41, 0x42, 0x43, 0x50, 0x7F] :
      List Byte)) ∧
    (0x7F#8 ∈ ([0x01, 0x02, 0x10, 0x11, 0x21, 0x22, 0x40, 0x41, 0x42, 0x43, 0x50, 0x7F] : List Byte) ∧
      (0x01#8 : Byte) ≠ 0#8) ∧
    (1 < (0x02#8 : Byte).toNat) ∧ ¬ (1 < (0x01#8 : Byte).toNat) ∧
    decode (0#8 ++ 8#8 ++ 0x01#8 ++ 0x20#8) = .ok (.cfbStart .dec 8) := by decide

/-- A legal and an illegal word in the first pending move. -/
theorem test_witness_StepRunsTheDecodedCommand :
    (before (.write 0x000 4 0x0000007F)).pending = .write 0x000 4 0x0000007F :: [] ∧
    decode 0x0000007F = .ok (.softReset 0) ∧
    (before (.write 0x000 4 0xFFFFFFFF)).pending = .write 0x000 4 0xFFFFFFFF :: [] ∧
    decode 0xFFFFFFFF = .error .reservedBits := by decide

theorem test_witness_IdleStepKeepsState : State.reset.pending = [] := rfl

/-- The four ways of rule R63, at the ends of the unmapped ranges. -/
theorem test_witness_RefusedAccessFaults :
    (before (.read 0x080 2)).pending = .read 0x080 2 :: [] ∧
    (0x081 % 4 ≠ 0) ∧ (0x00C ≤ 0x00C ∧ 0x00C < 0x080) ∧ (0x00C ≤ 0x07C ∧ 0x07C < 0x080) ∧ 0x140 ≤ 0x140 ∧
    (before (.write 0x140 4 0)).pending = .write 0x140 4 0 :: [] := by decide

/-- Each range of rule R65 at its ends. -/
theorem test_witness_ReadReturnsTheRegister :
    ∀ off ∈ [0x000, 0x004, 0x008, 0x080, 0x0FC, 0x100, 0x13C],
      (before (.read off 4)).pending = .read off 4 :: [] ∧ off % 4 = 0 := by decide

/-- Each range of rule R64 at its ends. -/
theorem test_witness_WriteReachesTheRegister :
    ∀ off ∈ [0x000, 0x004, 0x008, 0x080, 0x0FC, 0x100, 0x13C],
      (before (.write off 4 1)).pending = .write off 4 1 :: [] ∧ off % 4 = 0 := by decide

/-- The longest sequence a LOAD can place, and one that ends inside a word. -/
theorem test_witness_LoadPlacesTheBytes :
    ((List.replicate 128 1#8 : Bytes).length ≤ 128 ∧ (List.replicate 128 1#8 : Bytes) ≠ []) ∧
    (([1, 2, 3] : Bytes) ≠ [] ∧ ([1, 2, 3] : Bytes).length ≤ 128 ∧
      { State.reset with pending := loadMoves [1, 2, 3] }.pending = loadMoves [1, 2, 3] ++ []) := by decide +kernel

theorem test_witness_DinWritesCommuteAndAreIdempotent :
    (0 % 4 = 0 ∧ 124 % 4 = 0 ∧ (0 : Nat) ≠ 124) := by decide

/-- Two states with different keys that a host cannot tell apart. -/
theorem test_witness_ReadsRevealOnlyResultsAndStatus :
    HostSees (before (.read 0x004 4))
      { before (.read 0x004 4) with k := Vector.replicate 8 1, din := Vector.replicate 128 1 } ∧
    (before (.read 0x004 4)).pending = .read 0x004 4 :: [] :=
  ⟨⟨rfl, rfl, rfl, rfl, rfl, rfl⟩, rfl⟩

theorem test_witness_ResetGivesTheResetValues : (before .hardReset).pending = .hardReset :: [] := rfl

/-- A state with the invariants that a command takes to another. -/
theorem test_witness_EveryStepKeepsTheInvariants :
    CoreInvariants (before (.write 0x000 4 0x00200001)) ∧
    ∃ t, step (before (.write 0x000 4 0x00200001)) = .next t ∧ t.cstate = .cKeyed :=
  ⟨by constructor <;> simp [before], _, rfl, rfl⟩

/-- A pre-check error of each kind, and an IntegrityError. -/
theorem test_witness_PrecheckErrorsChangeOnlyStatus :
    decode 0x00000000 = .error .unassignedOpcode ∧
    precheckError (.hmacUpdate 200) finalized = some .useAfterFinalize ∧
    precheckError (.blkEnc 9) State.reset = some .badState ∧
    precheckError (.kwDecode 7 3) State.reset = some .unsupportedMethod ∧
    precheckError (.hmacUpdate 129) (withH .hInitialized) = some .invalidSize ∧
    exec (.kwDecode 1 81) State.reset = .next (raiseIntegrity State.reset) :=
  ⟨by decide, by decide, by decide, by decide, by decide, rfl⟩

/-- For each command a state in which its pre-checks all pass. -/
theorem test_witness_CommandsPastTheirPrechecksSucceed :
    precheckError (.ctxInit 32) State.reset = none ∧ precheckError (.ctxWipe 0) State.reset = none ∧
    precheckError (.blkEnc 8) (withC .cKeyed) = none ∧ precheckError (.blkDec 8) (withC .cKeyed) = none ∧
    precheckError (.cfbStart .dec 8) (withC .cKeyed) = none ∧
    precheckError (.cfbData 64) (withC .cStreamEnc) = none ∧
    precheckError (.cfbData 1) (withC .cStreamDec) = none ∧
    precheckError (.cfbEnd 0) (withC .cStreamDec) = none ∧
    precheckError (.kwEncode 1 72) State.reset = none ∧ precheckError (.kwDecode 2 81) State.reset = none ∧
    precheckError (.hmacInit 128) finalized = none ∧ precheckError (.hmacUpdate 128) (withH .hInitialized) = none ∧
    precheckError (.hmacFinal 0) (withH .hAccumulating) = none ∧
    precheckError (.hmacWipe 0) State.reset = none ∧ precheckError (.ioWipe 0) State.reset = none ∧
    precheckError (.softReset 0) State.reset = none := by decide

/-- A failing command; and a step that clears the sticky error. -/
theorem test_witness_StickyErrorIsClearedOnlyByReset :
    (∃ t, execWord 0 State.reset = .next t ∧ t.err ≠ .noError) ∧
    ∃ t, { before .hardReset with esticky := true }.esticky = true ∧
      step { before .hardReset with esticky := true } = .next t ∧ t.esticky = false :=
  ⟨⟨_, rfl, by decide⟩, _, rfl, rfl, rfl⟩

/-- A successful and a failing command of the cipher context. -/
theorem test_witness_CipherContextFollowsItsTable :
    (∃ t, exec (.cfbData 5) (withC .cStreamEnc) = .next t ∧ t.err = .noError) ∧
    ∃ t, exec (.cfbData 5) (withC .cKeyed) = .next t ∧ t.err ≠ .noError :=
  ⟨⟨_, rfl, rfl⟩, _, rfl, by decide⟩

/-- A successful and a failing command of the HMAC context. -/
theorem test_witness_HmacContextFollowsItsTable :
    (∃ t, exec (.hmacUpdate 0) (withH .hInitialized) = .next t ∧ t.err = .noError) ∧
    ∃ t, exec (.hmacUpdate 0) (withH .hFinalized) = .next t ∧ t.err ≠ .noError :=
  ⟨⟨_, rfl, rfl⟩, _, rfl, by decide⟩

theorem test_witness_BoundKeyIsImmutable :
    let s : State :=
      { before (.write 0x000 4 0x00000002) with cstate := .cKeyed, k := Vector.replicate 8 1 }
    s.cstate ≠ .cEmpty ∧ ∃ t, step s = .next t ∧ t.k ≠ s.k :=
  ⟨by decide, _, rfl, by decide⟩

/-- A command that wipes, one that does not, and one that fails a pre-check. -/
theorem test_witness_KeyBearingCommandsWipeDin :
    (∃ t, exec (.ctxInit 32) State.reset = .next t) ∧ precheckError (.ctxInit 32) State.reset = none ∧
    (∃ t, exec (.ctxWipe 0) State.reset = .next t) ∧
    (∃ t, exec (.ctxInit 31) State.reset = .next t) ∧ precheckError (.ctxInit 31) State.reset ≠ none :=
  ⟨⟨_, rfl⟩, by decide, ⟨_, rfl⟩, ⟨_, rfl⟩, by decide⟩

/-- A command without a result, one with a result, and a failed verification. -/
theorem test_witness_ResultBufferHoldsTheLatestResult :
    (∃ t, exec (.ctxInit 32) State.reset = .next t) ∧
    (∃ t, exec (.blkEnc 8) (withC .cKeyed) = .next t ∧ t.err = .noError) ∧
    precheckError (.blkEnc 8) (withC .cKeyed) = none ∧
    ∃ t, exec (.kwDecode 1 81) State.reset = .next t ∧ t.err = .error .integrityError :=
  ⟨⟨_, rfl⟩, ⟨_, rfl, rfl⟩, by decide, _, rfl, rfl⟩

/-- Rule R134: a bound key, and no key with the legal length and its neighbours. -/
theorem test_witness_CtxInitBindsTheKey :
    (withC .cKeyed).cstate ≠ .cEmpty ∧ (State.reset.cstate = .cEmpty ∧ (31#8).toNat ≠ 32) ∧
    (State.reset.cstate = .cEmpty ∧ (33#8).toNat ≠ 32) ∧
    (State.reset.cstate = .cEmpty ∧ (32#8).toNat = 32) := by decide

theorem test_witness_CtxWipeDestroysTheContext : (1#8).toNat ≠ 0 ∧ (0#8).toNat = 0 := by decide

/-- Rule R136: no key, an open stream, and a key with the legal length and its neighbours. -/
theorem test_witness_BlkEncEncryptsTheBlock :
    State.reset.cstate ≠ .cKeyed ∧ (withC .cStreamEnc).cstate ≠ .cKeyed ∧
    ((withC .cKeyed).cstate = .cKeyed ∧ (7#8).toNat ≠ 8) ∧
    ((withC .cKeyed).cstate = .cKeyed ∧ (9#8).toNat ≠ 8) ∧
    ((withC .cKeyed).cstate = .cKeyed ∧ (8#8).toNat = 8) := by decide

/-- Rule R137: no key, an open stream, and a key with the legal length and its neighbours. -/
theorem test_witness_BlkDecDecryptsTheBlock :
    State.reset.cstate ≠ .cKeyed ∧ (withC .cStreamDec).cstate ≠ .cKeyed ∧
    ((withC .cKeyed).cstate = .cKeyed ∧ (7#8).toNat ≠ 8) ∧
    ((withC .cKeyed).cstate = .cKeyed ∧ (9#8).toNat ≠ 8) ∧
    ((withC .cKeyed).cstate = .cKeyed ∧ (8#8).toNat = 8) := by decide

/-- Rule R166: no key, an open stream, and a key with the legal length and its neighbours. -/
theorem test_witness_CfbStartOpensTheStream :
    State.reset.cstate ≠ .cKeyed ∧ (withC .cStreamEnc).cstate ≠ .cKeyed ∧
    ((withC .cKeyed).cstate = .cKeyed ∧ (0#8).toNat ≠ 8) ∧
    ((withC .cKeyed).cstate = .cKeyed ∧ (9#8).toNat ≠ 8) ∧
    ((withC .cKeyed).cstate = .cKeyed ∧ (8#8).toNat = 8) := by decide

/-- Rule R167: no stream, and in a stream of each direction the lengths 0 and 65, 8 and 64, 1 and 63. -/
theorem test_witness_CfbDataTransformsTheStream :
    (State.reset.cstate = .cEmpty ∨ State.reset.cstate = .cKeyed) ∧
    ((withC .cKeyed).cstate = .cEmpty ∨ (withC .cKeyed).cstate = .cKeyed) ∧
    ((withC .cStreamEnc).cstate = .cStreamEnc ∧ Dir.enc = .enc) ∧
    ((withC .cStreamDec).cstate = .cStreamDec ∧ Dir.dec = .dec) ∧
    ((0#8).toNat = 0 ∨ 64 < (0#8).toNat) ∧ ((65#8).toNat = 0 ∨ 64 < (65#8).toNat) ∧
    (∀ len ∈ [8#8, 64#8], 1 ≤ len.toNat ∧ len.toNat ≤ 64 ∧ len.toNat % 8 = 0) ∧
    (∀ len ∈ [1#8, 63#8], 1 ≤ len.toNat ∧ len.toNat ≤ 64 ∧ len.toNat % 8 ≠ 0) := by decide

/-- The cases of rule R168. -/
theorem test_witness_CfbEndClosesTheStream :
    (¬ ((withC .cKeyed).cstate = .cStreamEnc ∨ (withC .cKeyed).cstate = .cStreamDec)) ∧
    ((withC .cStreamEnc).cstate = .cStreamEnc ∨ (withC .cStreamEnc).cstate = .cStreamDec) ∧
    (0#8).toNat = 0 ∧ (1#8).toNat ≠ 0 := by decide

theorem test_witness_BlkDecUndoesBlkEnc : (withC .cKeyed).cstate = .cKeyed := rfl

theorem test_witness_CfbRunsInChunks : (countUp 0 16).length % 8 = 0 := by decide

/-- A run of one full segment, one of less than a segment, and one that ends in a partial segment. -/
theorem test_witness_CfbRunSegments :
    (countUp 0 8).length = 8 ∧ 8 ≤ (countUp 0 8).length ∧ (countUp 0 7).length < 8 ∧
    ([] : Bytes).length < 8 ∧ (countUp 0 13).length % 8 ≠ 0 := by decide

theorem test_witness_CfbCommandsStreamInChunks :
    (withC .cStreamDec).cstate = streamState .dec ∧ 1 ≤ (countUp 0 64).length ∧
    (countUp 0 64).length ≤ 64 ∧ (countUp 0 64).length % 8 = 0 ∧ 1 ≤ (countUp 0 5).length ∧
    (countUp 0 5).length ≤ 64 := by decide

/-- A change of one bit in `M`, at both ends of `C` and `T`, and at both ends of `UKM` under method 1. -/
theorem test_witness_TamperedBlobFailsToDecode :
    (1#8 : Byte) ≠ 0#8 ∧ ((0 : Fin 49).val = 0) ∧ (∀ j ∈ [(9 : Fin 49), 40, 41, 48], 9 ≤ j.val) ∧
    (∀ j ∈ [(1 : Fin 49), 8], 1 ≤ j.val ∧ j.val ≤ 8 ∧ Method.plain = Method.plain) := by decide

/-- Rule R190: methods 0 and 3, and both methods with the legal length and its neighbours. -/
theorem test_witness_KwEncodeEncodesTheSessionKey :
    ((0#8).toNat ≠ 1 ∧ (0#8).toNat ≠ 2) ∧ ((3#8).toNat ≠ 1 ∧ (3#8).toNat ≠ 2) ∧
    (((1#8).toNat = 1 ∨ (1#8).toNat = 2) ∧ (71#8).toNat ≠ 72) ∧
    (((2#8).toNat = 1 ∨ (2#8).toNat = 2) ∧ (73#8).toNat ≠ 72) ∧
    (1#8 = methodCode .plain ∧ (72#8).toNat = 72) ∧ (2#8 = methodCode .diversified ∧ (72#8).toNat = 72) := by
  decide

/-- Rule R191: methods 0 and 3, and both methods with the legal length and its neighbours. -/
theorem test_witness_KwDecodeDecodesTheBlob :
    ((0#8).toNat ≠ 1 ∧ (0#8).toNat ≠ 2) ∧ ((3#8).toNat ≠ 1 ∧ (3#8).toNat ≠ 2) ∧
    (((1#8).toNat = 1 ∨ (1#8).toNat = 2) ∧ (80#8).toNat ≠ 81) ∧
    (((2#8).toNat = 1 ∨ (2#8).toNat = 2) ∧ (82#8).toNat ≠ 81) ∧
    (1#8 = methodCode .plain ∧ (81#8).toNat = 81) ∧ (2#8 = methodCode .diversified ∧ (81#8).toNat = 81) := by
  decide

/-- Two blobs, a method byte of 0 and of 3, that both fail their verification. -/
theorem test_witness_IntegrityFailuresLookAlike :
    (∃ t, exec (.kwDecode 1 81) { State.reset with din := zeros 128 } = .next t ∧
      t.err = .error .integrityError) ∧
    ∃ t, exec (.kwDecode 2 81) { State.reset with din := Vector.replicate 128 3 } = .next t ∧
      t.err = .error .integrityError :=
  ⟨⟨_, rfl, rfl⟩, _, rfl, rfl⟩

theorem test_witness_KeyTransportIgnoresTheContexts :
    ∃ t, exec (.kwEncode 1 72) (withC .cStreamEnc) = .next t ∧ t.err = .noError := ⟨_, rfl, rfl⟩

/-- A key that is hashed and one that is padded, at the threshold. -/
theorem test_witness_HmacIsTheStandardConstruction :
    32 < (countUp 0 33).length ∧ (countUp 0 32).length ≤ 32 := by decide

/-- Rule R214: a live context, and none or a finalized one with lengths 129, 128 and 0. -/
theorem test_witness_HmacInitCreatesTheContext :
    ((withH .hAccumulating).hstate = .hInitialized ∨ (withH .hAccumulating).hstate = .hAccumulating) ∧
    (¬ ((withH .hFinalized).hstate = .hInitialized ∨ (withH .hFinalized).hstate = .hAccumulating) ∧
      128 < (129#8).toNat) ∧
    (¬ (State.reset.hstate = .hInitialized ∨ State.reset.hstate = .hAccumulating) ∧
      (128#8).toNat ≤ 128 ∧ (0#8).toNat ≤ 128) := by decide

/-- Rule R215: a finalized context, none, and a live one with lengths 129, 128 and 0. -/
theorem test_witness_HmacUpdateAbsorbsTheChunk :
    (withH .hFinalized).hstate = .hFinalized ∧ State.reset.hstate = .hNone ∧
    ((withH .hInitialized).hstate = .hInitialized ∨ (withH .hInitialized).hstate = .hAccumulating) ∧
    ((withH .hAccumulating).hstate = .hInitialized ∨ (withH .hAccumulating).hstate = .hAccumulating) ∧
    128 < (129#8).toNat ∧ (128#8).toNat ≤ 128 ∧ (0#8).toNat ≤ 128 := by decide

/-- Rule R216: a finalized context, none, and a live one with lengths 1 and 0. -/
theorem test_witness_HmacFinalProducesTheDigest :
    (withH .hFinalized).hstate = .hFinalized ∧ State.reset.hstate = .hNone ∧
    ((withH .hInitialized).hstate = .hInitialized ∨ (withH .hInitialized).hstate = .hAccumulating) ∧
    ((withH .hAccumulating).hstate = .hInitialized ∨ (withH .hAccumulating).hstate = .hAccumulating) ∧
    (1#8).toNat ≠ 0 ∧ (0#8).toNat = 0 := by decide

theorem test_witness_HmacWipeAbandonsTheContext : (1#8).toNat ≠ 0 ∧ (0#8).toNat = 0 := by decide

/-- Three chunks, the second empty, as in program P4. -/
theorem test_witness_HmacUpdatesAbsorbTheConcatenation :
    ((withH .hInitialized).hstate = .hInitialized ∨ (withH .hInitialized).hstate = .hAccumulating) ∧
    ∀ d ∈ [countUp 0 10, [], countUp 0 128], d.length ≤ 128 := by decide +kernel

theorem test_witness_HmacSessionComputesHmac :
    (State.reset.hstate = .hNone ∨ State.reset.hstate = .hFinalized) ∧ (countUp 0 128).length ≤ 128 ∧
    ∀ d ∈ [countUp 0 10, [], countUp 0 9], d.length ≤ 128 := by decide +kernel

theorem test_witness_IoWipeZeroesBothBuffers : (1#8).toNat ≠ 0 ∧ (0#8).toNat = 0 := by decide

theorem test_witness_SoftResetReturnsToReset : (1#8).toNat ≠ 0 ∧ (0#8).toNat = 0 := by decide

end Sys2Proof.Tests
end

/-! SUPPORT. How a command ends: it fails its first pre-check and raises that error, or it passes them all
and has the one effect of its rule. Everything the statements of 10_state.md say of commands is read off
`exec_next`. -/

namespace Sys2Proof.Machine

/-! ### The pre-checks, one after another (rule R252) -/

section
variable {i : Instr} {s : State} {e : ErrorKind}

theorem precheckError_of_context (hc : contextError i s.cstate s.hstate = some e) :
    precheckError i s = some e := by
  simp [precheckError, hc]

theorem precheckError_of_method (hc : contextError i s.cstate s.hstate = none)
    (hm : methodError i = some e) : precheckError i s = some e := by
  simp [precheckError, hc, hm]

theorem precheckError_of_size (hc : contextError i s.cstate s.hstate = none)
    (hm : methodError i = none) (hl : legalLen i = false) :
    precheckError i s = some .invalidSize := by
  simp [precheckError, hc, hm, hl]

theorem precheckError_eq_none (hc : contextError i s.cstate s.hstate = none)
    (hm : methodError i = none) (hl : legalLen i = true) : precheckError i s = none := by
  simp [precheckError, hc, hm, hl]

end

/-- A `LEN` other than the one a command asks for is that number neither (rule R93). -/
theorem toNat_beq_false {len : Byte} {n : Nat} (hn : n < 256) (h : len ≠ BitVec.ofNat 8 n) :
    (len.toNat == n) = false := by
  refine beq_false_of_ne fun hlen => h (BitVec.eq_of_toNat_eq ?_)
  simp [hlen, Nat.mod_eq_of_lt hn]

theorem stream_of_eq_streamState {c : CState} {dir : Dir} (h : c = streamState dir) :
    c = .cStreamEnc ∨ c = .cStreamDec := by
  cases dir
  · exact .inl h
  · exact .inr h

theorem not_stream_of_streamDir_eq_none {c : CState} (h : streamDir c = none) :
    ¬ (c = .cStreamEnc ∨ c = .cStreamDec) := by
  obtain rfl | rfl := streamDir_eq_none.1 h <;> simp

/-- The slot of the HMAC context is free exactly when no context is live (rule R27). -/
theorem hstate_free_iff {h : HState} :
    h = .hNone ∨ h = .hFinalized ↔ ¬ (h = .hInitialized ∨ h = .hAccumulating) := by
  cases h <;> simp

theorem hmacLiveError_eq_none {h : HState} :
    hmacLiveError h = none ↔ h = .hInitialized ∨ h = .hAccumulating := by
  cases h <;> simp [hmacLiveError]

theorem contextError_hmacUpdate (len : Byte) (c : CState) (h : HState) :
    contextError (.hmacUpdate len) c h = hmacLiveError h := by
  cases h <;> rfl

theorem contextError_hmacFinal (len : Byte) (c : CState) (h : HState) :
    contextError (.hmacFinal len) c h = hmacLiveError h := by
  cases h <;> rfl

/-- The methods of the closed set raise no error, and every other code raises UnsupportedMethod
(rules R99, R251). -/
theorem methodError_kw (method len : Byte) :
    methodError (.kwEncode method len) =
        (if methodOf method = none then some .unsupportedMethod else none) ∧
      methodError (.kwDecode method len) =
        (if methodOf method = none then some .unsupportedMethod else none) := by
  have codes : (method.toNat = 1 ∨ method.toNat = 2) ↔ ¬ methodOf method = none := by
    simp only [methodOf_eq_none, ne_eq, BitVec.toNat_eq, BitVec.toNat_ofNat]
    omega
  by_cases hm : methodOf method = none <;> simp [methodError, codes, hm]

/-! ### What a command does past its pre-checks -/

/-- `Completes i s t`: command `i`, past its pre-checks in `s`, ends in `t`. Each constructor is the effect
of one rule, with the part of its pre-checks that later proofs use. -/
inductive Completes : Instr → State → State → Prop
  | ctxInit {s : State} (hc : s.cstate = .cEmpty) :
      Completes (.ctxInit 32#8) s
        (succeed (wipeDin { s with k := keyWords (keyOperand s), sr := zeros 8, cstate := .cKeyed }))
  | ctxWipe {s : State} : Completes (.ctxWipe 0#8) s (succeed (dropCipherContext s))
  | blkEnc {s : State} (hc : s.cstate = .cKeyed) :
      Completes (.blkEnc 8#8) s
        (succeed (setOut (encWords Config.sbox s.k (blockOperand s)).toList s))
  | blkDec {s : State} (hc : s.cstate = .cKeyed) :
      Completes (.blkDec 8#8) s
        (succeed (setOut (decWords Config.sbox s.k (blockOperand s)).toList s))
  | cfbStart {s : State} {dir : Dir} (hc : s.cstate = .cKeyed) :
      Completes (.cfbStart dir 8#8) s
        (succeed { s with sr := blockOperand s, cstate := streamState dir })
  | cfbDataFull {s : State} {dir : Dir} {len : Byte} (hc : s.cstate = streamState dir)
      (hlen : len.toNat ≤ 64) (hfull : len.toNat % 8 = 0) :
      Completes (.cfbData len) s
        (succeed { setOut (cfbRun Config.sbox dir s.k s.sr (inBytes len.toNat s)).1 s with
          sr := (cfbRun Config.sbox dir s.k s.sr (inBytes len.toNat s)).2 })
  | cfbDataPartial {s : State} {dir : Dir} {len : Byte} (hc : s.cstate = streamState dir)
      (hlen : len.toNat ≤ 64) (hpart : len.toNat % 8 ≠ 0) :
      Completes (.cfbData len) s
        (succeed (closeStream
          (setOut (cfbRun Config.sbox dir s.k s.sr (inBytes len.toNat s)).1 s)))
  | cfbEnd {s : State} {dir : Dir} (hc : s.cstate = streamState dir) :
      Completes (.cfbEnd 0#8) s (succeed (closeStream s))
  | kwEncode {s : State} {method : Byte} {m : Method} (hm : methodOf method = some m) :
      Completes (.kwEncode method 72#8) s
        (succeed (wipeDin (setOut (kwEncodeBlob Config.sbox m (kekOperand s) (ukmOperand s)
          (sessionKeyOperand s)).toList s)))
  | kwDecode {s : State} {method : Byte} {m : Method} {key : Key} (hm : methodOf method = some m)
      (hkey : kwDecodeBlob Config.sbox m (kekOperand s) (blobOperand s) = some key) :
      Completes (.kwDecode method 81#8) s (succeed (setOut key.toList (wipeDin s)))
  | kwDecodeFails {s : State} {method : Byte} {m : Method} (hm : methodOf method = some m)
      (hfail : kwDecodeBlob Config.sbox m (kekOperand s) (blobOperand s) = none) :
      Completes (.kwDecode method 81#8) s (raiseIntegrity s)
  | hmacInit {s : State} {len : Byte} (hh : s.hstate = .hNone ∨ s.hstate = .hFinalized) :
      Completes (.hmacInit len) s
        (succeed (wipeDin
          { s with
            ikey := hmacInnerKey (hmacK0 Config.hash (inBytes len.toNat s))
            okey := hmacOuterKey (hmacK0 Config.hash (inBytes len.toNat s))
            hacc := (hmacInnerKey (hmacK0 Config.hash (inBytes len.toNat s))).toList
            hstate := .hInitialized }))
  | hmacUpdate {s : State} {len : Byte} (hh : s.hstate = .hInitialized ∨ s.hstate = .hAccumulating) :
      Completes (.hmacUpdate len) s
        (succeed { s with hacc := s.hacc ++ inBytes len.toNat s, hstate := .hAccumulating })
  | hmacFinal {s : State} (hh : s.hstate = .hInitialized ∨ s.hstate = .hAccumulating) :
      Completes (.hmacFinal 0#8) s
        (succeed (dropHmacContext .hFinalized
          (setOut (hmacDigest Config.hash s.okey s.hacc).toList s)))
  | hmacWipe {s : State} : Completes (.hmacWipe 0#8) s (succeed (dropHmacContext .hNone s))
  | ioWipe {s : State} : Completes (.ioWipe 0#8) s (succeed (setOut [] (wipeDin s)))
  | softReset {s : State} : Completes (.softReset 0#8) s (succeed (resetCore s))

/-- `Ends i s t`: the two ways command `i`, started in `s`, ends in `t`. -/
inductive Ends (i : Instr) (s : State) : State → Prop
  | raised {e : ErrorKind} (he : precheckError i s = some e) : Ends i s (raise e s)
  | completed {t : State} (he : precheckError i s = none) (ht : Completes i s t) : Ends i s t

section
variable {len method : Byte} {dir : Dir} {s t : State}

theorem execCtxInit_ends (h : execCtxInit len s = .next t) : Ends (.ctxInit len) s t := by
  obtain ⟨hc, rfl⟩ | ⟨hc, hl, rfl⟩ | ⟨hc, rfl, rfl⟩ := execCtxInit_next h
  · exact .raised (precheckError_of_context (if_neg hc))
  · exact .raised (precheckError_of_size (if_pos hc) rfl (toNat_beq_false (by decide) hl))
  · exact .completed (precheckError_eq_none (if_pos hc) rfl rfl) (.ctxInit hc)

theorem execCtxWipe_ends (h : execCtxWipe len s = .next t) : Ends (.ctxWipe len) s t := by
  obtain ⟨hl, rfl⟩ | ⟨rfl, rfl⟩ := execCtxWipe_next h
  · exact .raised (precheckError_of_size rfl rfl (toNat_beq_false (by decide) hl))
  · exact .completed (precheckError_eq_none rfl rfl rfl) .ctxWipe

theorem execBlkEnc_ends (h : execBlkEnc len s = .next t) : Ends (.blkEnc len) s t := by
  obtain ⟨hc, rfl⟩ | ⟨hc, hl, rfl⟩ | ⟨hc, rfl, rfl⟩ := execBlkEnc_next h
  · exact .raised (precheckError_of_context (if_neg hc))
  · exact .raised (precheckError_of_size (if_pos hc) rfl (toNat_beq_false (by decide) hl))
  · exact .completed (precheckError_eq_none (if_pos hc) rfl rfl) (.blkEnc hc)

theorem execBlkDec_ends (h : execBlkDec len s = .next t) : Ends (.blkDec len) s t := by
  obtain ⟨hc, rfl⟩ | ⟨hc, hl, rfl⟩ | ⟨hc, rfl, rfl⟩ := execBlkDec_next h
  · exact .raised (precheckError_of_context (if_neg hc))
  · exact .raised (precheckError_of_size (if_pos hc) rfl (toNat_beq_false (by decide) hl))
  · exact .completed (precheckError_eq_none (if_pos hc) rfl rfl) (.blkDec hc)

theorem execCfbStart_ends (h : execCfbStart dir len s = .next t) : Ends (.cfbStart dir len) s t := by
  obtain ⟨hc, rfl⟩ | ⟨hc, hl, rfl⟩ | ⟨hc, rfl, rfl⟩ := execCfbStart_next h
  · exact .raised (precheckError_of_context (if_neg hc))
  · exact .raised (precheckError_of_size (if_pos hc) rfl (toNat_beq_false (by decide) hl))
  · exact .completed (precheckError_eq_none (if_pos hc) rfl rfl) (.cfbStart hc)

theorem execCfbData_ends (h : execCfbData len s = .next t) : Ends (.cfbData len) s t := by
  obtain ⟨hd, rfl⟩ | ⟨dir, hd, hrest⟩ := execCfbData_next h
  · exact .raised (precheckError_of_context (if_neg (not_stream_of_streamDir_eq_none hd)))
  have hc := streamDir_eq_some hd
  have open_stream : contextError (.cfbData len) s.cstate s.hstate = none :=
    if_pos (stream_of_eq_streamState hc)
  have legal (hpos : 0 < len.toNat) (hle : len.toNat ≤ 64) : legalLen (.cfbData len) = true := by
    simp [legalLen, hle, Nat.one_le_iff_ne_zero.2 hpos.ne']
  obtain ⟨hl, rfl⟩ | ⟨hpos, hle, hfull, rfl⟩ | ⟨hpos, hle, hpart, rfl⟩ := hrest
  · refine .raised (precheckError_of_size open_stream rfl ?_)
    obtain rfl | hl := hl
    · rfl
    · simp [legalLen, hl]
  · exact .completed (precheckError_eq_none open_stream rfl (legal hpos hle))
      (.cfbDataFull hc hle hfull)
  · exact .completed (precheckError_eq_none open_stream rfl (legal hpos hle))
      (.cfbDataPartial hc hle hpart)

theorem execCfbEnd_ends (h : execCfbEnd len s = .next t) : Ends (.cfbEnd len) s t := by
  obtain ⟨hd, rfl⟩ | ⟨dir, hd, hrest⟩ := execCfbEnd_next h
  · exact .raised (precheckError_of_context (if_neg (not_stream_of_streamDir_eq_none hd)))
  have hc := streamDir_eq_some hd
  have open_stream : contextError (.cfbEnd len) s.cstate s.hstate = none :=
    if_pos (stream_of_eq_streamState hc)
  obtain ⟨hl, rfl⟩ | ⟨rfl, rfl⟩ := hrest
  · exact .raised (precheckError_of_size open_stream rfl (toNat_beq_false (by decide) hl))
  · exact .completed (precheckError_eq_none open_stream rfl rfl) (.cfbEnd hc)

theorem execKwEncode_ends (h : execKwEncode method len s = .next t) :
    Ends (.kwEncode method len) s t := by
  obtain ⟨hm, rfl⟩ | ⟨m, hm, hrest⟩ := execKwEncode_next h
  · exact .raised (precheckError_of_method rfl (by simp [(methodError_kw method len).1, hm]))
  have known : methodError (.kwEncode method len) = none := by
    simp [(methodError_kw method len).1, hm]
  obtain ⟨hl, rfl⟩ | ⟨rfl, rfl⟩ := hrest
  · exact .raised (precheckError_of_size rfl known (toNat_beq_false (by decide) hl))
  · exact .completed (precheckError_eq_none rfl known rfl) (.kwEncode hm)

theorem execKwDecode_ends (h : execKwDecode method len s = .next t) :
    Ends (.kwDecode method len) s t := by
  obtain ⟨hm, rfl⟩ | ⟨m, hm, hrest⟩ := execKwDecode_next h
  · exact .raised (precheckError_of_method rfl (by simp [(methodError_kw method len).2, hm]))
  have known : methodError (.kwDecode method len) = none := by
    simp [(methodError_kw method len).2, hm]
  obtain ⟨hl, rfl⟩ | ⟨rfl, hfail, rfl⟩ | ⟨key, rfl, hkey, rfl⟩ := hrest
  · exact .raised (precheckError_of_size rfl known (toNat_beq_false (by decide) hl))
  · exact .completed (precheckError_eq_none rfl known rfl) (.kwDecodeFails hm hfail)
  · exact .completed (precheckError_eq_none rfl known rfl) (.kwDecode hm hkey)

theorem execHmacInit_ends (h : execHmacInit len s = .next t) : Ends (.hmacInit len) s t := by
  obtain ⟨hh, rfl⟩ | ⟨hh, hl, rfl⟩ | ⟨hh, hl, rfl⟩ := execHmacInit_next h
  · exact .raised (precheckError_of_context (if_neg (mt hstate_free_iff.1 (not_not.2 hh))))
  · exact .raised (precheckError_of_size (if_pos (hstate_free_iff.2 hh)) rfl (by simp [legalLen, hl]))
  · exact .completed (precheckError_eq_none (if_pos (hstate_free_iff.2 hh)) rfl (by simp [legalLen, hl]))
      (.hmacInit (hstate_free_iff.2 hh))

theorem execHmacUpdate_ends (h : execHmacUpdate len s = .next t) : Ends (.hmacUpdate len) s t := by
  have hc := contextError_hmacUpdate len s.cstate s.hstate
  obtain ⟨e, hh, rfl⟩ | ⟨hh, hl, rfl⟩ | ⟨hh, hl, rfl⟩ := execHmacUpdate_next h
  · exact .raised (precheckError_of_context (hc.trans hh))
  · exact .raised (precheckError_of_size (hc.trans hh) rfl (by simp [legalLen, hl]))
  · exact .completed (precheckError_eq_none (hc.trans hh) rfl (by simp [legalLen, hl]))
      (.hmacUpdate (hmacLiveError_eq_none.1 hh))

theorem execHmacFinal_ends (h : execHmacFinal len s = .next t) : Ends (.hmacFinal len) s t := by
  have hc := contextError_hmacFinal len s.cstate s.hstate
  obtain ⟨e, hh, rfl⟩ | ⟨hh, hl, rfl⟩ | ⟨hh, rfl, rfl⟩ := execHmacFinal_next h
  · exact .raised (precheckError_of_context (hc.trans hh))
  · exact .raised (precheckError_of_size (hc.trans hh) rfl (toNat_beq_false (by decide) hl))
  · exact .completed (precheckError_eq_none (hc.trans hh) rfl rfl)
      (.hmacFinal (hmacLiveError_eq_none.1 hh))

theorem execHmacWipe_ends (h : execHmacWipe len s = .next t) : Ends (.hmacWipe len) s t := by
  obtain ⟨hl, rfl⟩ | ⟨rfl, rfl⟩ := execHmacWipe_next h
  · exact .raised (precheckError_of_size rfl rfl (toNat_beq_false (by decide) hl))
  · exact .completed (precheckError_eq_none rfl rfl rfl) .hmacWipe

theorem execIoWipe_ends (h : execIoWipe len s = .next t) : Ends (.ioWipe len) s t := by
  obtain ⟨hl, rfl⟩ | ⟨rfl, rfl⟩ := execIoWipe_next h
  · exact .raised (precheckError_of_size rfl rfl (toNat_beq_false (by decide) hl))
  · exact .completed (precheckError_eq_none rfl rfl rfl) .ioWipe

theorem execSoftReset_ends (h : execSoftReset len s = .next t) : Ends (.softReset len) s t := by
  obtain ⟨hl, rfl⟩ | ⟨rfl, rfl⟩ := execSoftReset_next h
  · exact .raised (precheckError_of_size rfl rfl (toNat_beq_false (by decide) hl))
  · exact .completed (precheckError_eq_none rfl rfl rfl) .softReset

end

/-- Every command that answers a next state raises its first pre-check error, or completes
(rules R94, R252, R253). -/
theorem exec_next {i : Instr} {s t : State} (h : exec i s = .next t) : Ends i s t := by
  cases i with
  | ctxInit len => exact execCtxInit_ends h
  | ctxWipe len => exact execCtxWipe_ends h
  | blkEnc len => exact execBlkEnc_ends h
  | blkDec len => exact execBlkDec_ends h
  | cfbStart dir len => exact execCfbStart_ends h
  | cfbData len => exact execCfbData_ends h
  | cfbEnd len => exact execCfbEnd_ends h
  | kwEncode method len => exact execKwEncode_ends h
  | kwDecode method len => exact execKwDecode_ends h
  | hmacInit len => exact execHmacInit_ends h
  | hmacUpdate len => exact execHmacUpdate_ends h
  | hmacFinal len => exact execHmacFinal_ends h
  | hmacWipe len => exact execHmacWipe_ends h
  | ioWipe len => exact execIoWipe_ends h
  | softReset len => exact execSoftReset_ends h

/-- A command that ends with `ERR = 0` has completed. -/
theorem completes_of_exec {i : Instr} {s t : State} (h : exec i s = .next t)
    (herr : t.err = .noError) : Completes i s t := by
  cases exec_next h with
  | raised _ => cases herr
  | completed _ ht => exact ht

/-- A command past its pre-checks succeeds, or is a KW_DECODE that fails its verification
(rules R94, R254). -/
theorem Completes.err_cases {i : Instr} {s t : State} (h : Completes i s t) :
    t.err = .noError ∨ t = raiseIntegrity s := by
  cases h with
  | kwDecodeFails => exact .inr rfl
  | _ => exact .inl rfl

/-- A command that ends with `ERR` not 0 has done nothing but take its exception (rules R253, R254). -/
theorem exec_error_cases {i : Instr} {s t : State} (h : exec i s = .next t)
    (herr : t.err ≠ .noError) : (∃ e, t = raise e s) ∨ t = raiseIntegrity s := by
  cases exec_next h with
  | raised _ => exact .inl ⟨_, rfl⟩
  | completed _ ht => exact .inr (ht.err_cases.resolve_left herr)

/-- A word written to CMD raises an error before it has any effect, or its command completes
(rules R69, R94). -/
theorem execWord_next {w : Word} {s t : State} (h : execWord w s = .next t) :
    (∃ e, t = raise e s) ∨ ∃ i, decode w = .ok i ∧ Completes i s t := by
  obtain ⟨_, -, hw⟩ | ⟨i, hdec, hw⟩ := execWord_cases w s
  · exact .inl ⟨_, Host.Outcome.next.inj (h.symm.trans hw)⟩
  · cases exec_next (hw.symm.trans h) with
    | raised _ => exact .inl ⟨_, rfl⟩
    | completed _ ht => exact .inr ⟨i, hdec, ht⟩

end Sys2Proof.Machine

/-! SUPPORT. What one step can do, and what a read depends on. -/

namespace Sys2Proof.Machine

theorem step_cons {s : State} {m : HostMove} {rest : List HostMove} (h : s.pending = m :: rest) :
    step s = hostMove m { s with pending := rest } := by
  simp only [step, h]

@[simp] theorem hostMove_write_cmd (w : Word) (s : State) :
    hostMove (.write 0x000 4 w) s = execWord w { s with reply := .ack } := rfl

@[simp] theorem hostMove_hardReset (s : State) :
    hostMove .hardReset s = .next (resetCore { s with reply := .idle }) := rfl

/-- A write outside CMD changes nothing but `DIN` (rule R64). -/
theorem memWrite_frame (off : Nat) (v : Word) (s : State) :
    memWrite off v s = { s with din := (memWrite off v s).din } := by
  unfold memWrite
  split <;> rfl

/-- Every way a step answers a next state: a command written to CMD, a hardware reset, or anything else,
which leaves all of the core but `DIN` (rules R64, R65, R264). -/
theorem step_next_cases {s t : State} (h : step s = .next t) :
    (∃ din ps r, t = { s with din := din, pending := ps, reply := r }) ∨
    (∃ w rest, s.pending = .write 0x000 4 w :: rest ∧
      execWord w { s with pending := rest, reply := .ack } = .next t) ∨
    (∃ rest, s.pending = .hardReset :: rest ∧
      t = resetCore { s with pending := rest, reply := .idle }) := by
  obtain ⟨-, rfl⟩ | ⟨m, rest, hp, hm⟩ := step_next h
  · exact .inl ⟨_, _, _, rfl⟩
  obtain ⟨off, rfl, -, rfl⟩ | ⟨w, rfl, hw⟩ | ⟨off, v, rfl, -, -, rfl⟩ | ⟨rfl, rfl⟩ := hostMove_next hm
  · exact .inl ⟨_, _, _, rfl⟩
  · exact .inr (.inl ⟨w, rest, hp, hw⟩)
  · exact .inl ⟨_, rest, .ack, memWrite_frame off v _⟩
  · exact .inr (.inr ⟨rest, hp, rfl⟩)

/-- A legal word is the encoding of the command it decodes to (rules R94, R101). -/
theorem encode_of_decode {w : Word} {i : Instr} (h : decode w = .ok i) : encode i = w := by
  obtain ⟨hrsv, hf⟩ : fieldRsv w = 0#8 ∧
      decodeFields (fieldOpc w) (fieldArg w) (fieldLen w) = .ok i := by
    unfold decode at h
    split at h
    · exact ⟨‹_›, h⟩
    · cases h
  obtain ⟨hopc, harg, hlen⟩ := decodeFields_ok hf
  rw [encode, hopc, harg, hlen, ← hrsv]
  exact (word_eq_fields w).symm

/-- STATUS is made of the elements a host sees alone (rules R35, R41). -/
theorem HostSees.statusWord_eq {s t : State} (h : HostSees s t) : statusWord s = statusWord t := by
  simp only [statusWord, h.olen, h.hstate, h.cstate, h.esticky, h.err]

/-- What a read answers depends on the elements a host sees alone (rules R41, R65). -/
theorem HostSees.memRead_eq {s t : State} (h : HostSees s t) (off : Nat) :
    memRead off s = memRead off t := by
  simp only [memRead, doutWord, h.statusWord_eq, h.dout]

/-- A step on a pending read: its answer, or the bus's refusal (rules R63, R65). -/
theorem step_read {s : State} {off size : Nat} {rest : List HostMove}
    (h : s.pending = .read off size :: rest) :
    step s = if admitted off size then
        .next { s with pending := rest, reply := .data (memRead off s) }
      else .fault .busError := by
  rw [step_cons h, hostMove]
  have seen : HostSees { s with pending := rest } s := ⟨rfl, rfl, rfl, rfl, rfl, rfl⟩
  rw [seen.memRead_eq]

end Sys2Proof.Machine

/-! SUPPORT. The invariants of rule R40 under each operation on the state, one rule per operation; the rule
of a whole command puts these together. -/

namespace Sys2Proof.Machine

/-- A state that holds a result of at most 64 bytes meets item 5 of rule R40. -/
theorem result_bounds {t : State} {out : Bytes} {n : Nat} (hdout : t.dout = ofBytes 64 out)
    (holen : t.olen = BitVec.ofNat 8 out.length) (hlen : out.length = n) (hn : n ≤ 64) :
    t.olen.toNat = n ∧ ∀ j : Fin 64, n ≤ j.val → t.dout[j] = 0#8 := by
  subst hlen
  rw [hdout, holen]
  exact ⟨setOut_olen_toNat out t hn, fun j => setOut_dout_above out t j⟩

/-- CFB_DATA gives as many bytes as it is fed (rules R162, R167). -/
theorem cfbData_out_length {len : Byte} (dir : Dir) (s : State) (h : len.toNat ≤ 64) :
    (cfbRun Config.sbox dir s.k s.sr (inBytes len.toNat s)).1.length = len.toNat := by
  rw [cfbRun_length, inBytes_length _ _ (by omega)]

/-- The invariants do not mention `DIN`, nor the model's own fields. -/
theorem CoreInvariants.withHostSide {s : State} (h : CoreInvariants s) (din : Vector Byte 128)
    (ps : List HostMove) (r : BusReply) :
    CoreInvariants { s with din := din, pending := ps, reply := r } :=
  { h with }

theorem CoreInvariants.wipeDin {s : State} (h : CoreInvariants s) : CoreInvariants (wipeDin s) :=
  h.withHostSide (zeros 128) s.pending s.reply

theorem CoreInvariants.succeed {s : State} (h : CoreInvariants s) : CoreInvariants (succeed s) :=
  { h with err_sticky := fun hne => absurd rfl hne }

theorem CoreInvariants.raise {s : State} (h : CoreInvariants s) (e : ErrorKind) :
    CoreInvariants (raise e s) :=
  { h with err_sticky := fun _ => rfl }

theorem CoreInvariants.setOut {s : State} (h : CoreInvariants s) (out : Bytes)
    (hlen : out.length ≤ 64) : CoreInvariants (setOut out s) := by
  obtain ⟨holen, hzero⟩ := result_bounds (t := Machine.setOut out s) rfl rfl rfl hlen
  exact { h with
    olen_le := holen.trans_le hlen
    dout_zero := fun j hj => hzero j (holen ▸ hj) }

theorem CoreInvariants.raiseIntegrity {s : State} (h : CoreInvariants s) :
    CoreInvariants (raiseIntegrity s) :=
  (h.wipeDin.setOut [] (Nat.zero_le 64)).raise .integrityError

theorem CoreInvariants.dropCipherContext {s : State} (h : CoreInvariants s) :
    CoreInvariants (dropCipherContext s) :=
  { h with
    empty_zero := fun _ => ⟨rfl, rfl⟩
    keyed_sr_zero := fun _ => rfl }

/-- A context with a key bound and a zero register, whatever the key (items 1 and 2). -/
theorem CoreInvariants.keyed {s : State} (h : CoreInvariants s) (k : Subkeys) :
    CoreInvariants { s with k := k, sr := zeros 8, cstate := .cKeyed } :=
  { h with
    empty_zero := fun hc => by cases hc
    keyed_sr_zero := fun _ => rfl }

theorem CoreInvariants.closeStream {s : State} (h : CoreInvariants s) :
    CoreInvariants (closeStream s) :=
  h.keyed s.k

/-- While a stream is open its register may hold anything (items 1 and 2). -/
theorem CoreInvariants.streaming {s : State} (h : CoreInvariants s) (sr : Block) (dir : Dir) :
    CoreInvariants { s with sr := sr, cstate := streamState dir } :=
  { h with
    empty_zero := fun hc => by cases dir <;> cases hc
    keyed_sr_zero := fun hc => by cases dir <;> cases hc }

theorem CoreInvariants.advanceStream {s : State} {dir : Dir} (h : CoreInvariants s)
    (hc : s.cstate = streamState dir) (sr : Block) : CoreInvariants { s with sr := sr } :=
  hc ▸ h.streaming sr dir

theorem CoreInvariants.dropHmacContext {s : State} (h : CoreInvariants s) {slot : HState}
    (hslot : slot = .hNone ∨ slot = .hFinalized) : CoreInvariants (dropHmacContext slot s) :=
  { h with
    no_hmac_zero := fun _ => ⟨rfl, rfl, rfl⟩
    live_hmac := fun hlive => absurd hlive (hstate_free_iff.1 hslot) }

/-- A new HMAC context: its pads come from one key, and the inner one has been absorbed (item 4). -/
theorem CoreInvariants.startHmac {s : State} (h : CoreInvariants s) (k0 : Key) :
    CoreInvariants { s with
      ikey := hmacInnerKey k0
      okey := hmacOuterKey k0
      hacc := (hmacInnerKey k0).toList
      hstate := .hInitialized } :=
  { h with
    no_hmac_zero := fun hfree => absurd (.inl rfl) (hstate_free_iff.1 hfree)
    live_hmac := fun _ => ⟨by simp, xorV_pads k0⟩ }

/-- What a live context absorbs goes behind the inner key (item 4). -/
theorem CoreInvariants.absorb {s : State} (h : CoreInvariants s)
    (hlive : s.hstate = .hInitialized ∨ s.hstate = .hAccumulating) (chunk : Bytes) :
    CoreInvariants { s with hacc := s.hacc ++ chunk, hstate := .hAccumulating } := by
  obtain ⟨hbegin, hpads⟩ := h.live_hmac hlive
  have hlen : 32 ≤ s.hacc.length := by
    simpa using congrArg List.length hbegin
  exact { h with
    no_hmac_zero := fun hfree => absurd (.inr rfl) (hstate_free_iff.1 hfree)
    live_hmac := fun _ => ⟨(List.take_append_of_le_length hlen).trans hbegin, hpads⟩ }

/-- Every element at its reset value meets the invariants, without a premise on the state before
(rules R40, R42). -/
theorem coreInvariants_resetCore (s : State) : CoreInvariants (resetCore s) where
  empty_zero _ := ⟨rfl, rfl⟩
  keyed_sr_zero _ := rfl
  no_hmac_zero _ := ⟨rfl, rfl, rfl⟩
  live_hmac hlive := absurd hlive (hstate_free_iff.1 (.inl rfl))
  olen_le := Nat.zero_le 64
  dout_zero i _ := by simp
  err_sticky hne := absurd rfl hne

/-- A command past its pre-checks keeps the invariants, each by the rules of the operations it is made of. -/
theorem CoreInvariants.completes {i : Instr} {s t : State} (hs : CoreInvariants s)
    (h : Completes i s t) : CoreInvariants t := by
  cases h with
  | ctxInit _ => exact (hs.keyed _).wipeDin.succeed
  | ctxWipe => exact hs.dropCipherContext.succeed
  | blkEnc _ => exact (hs.setOut _ (by simp)).succeed
  | blkDec _ => exact (hs.setOut _ (by simp)).succeed
  | cfbStart _ => exact (hs.streaming _ _).succeed
  | cfbDataFull hc hlen _ =>
    exact ((hs.setOut _ ((cfbData_out_length _ _ hlen).trans_le hlen)).advanceStream hc _).succeed
  | cfbDataPartial _ hlen _ =>
    exact (hs.setOut _ ((cfbData_out_length _ _ hlen).trans_le hlen)).closeStream.succeed
  | cfbEnd _ => exact hs.closeStream.succeed
  | kwEncode _ => exact (hs.setOut _ (by simp)).wipeDin.succeed
  | kwDecode _ _ => exact (hs.wipeDin.setOut _ (by simp)).succeed
  | kwDecodeFails _ _ => exact hs.raiseIntegrity
  | hmacInit _ => exact (hs.startHmac _).wipeDin.succeed
  | hmacUpdate hh => exact (hs.absorb hh _).succeed
  | hmacFinal _ => exact ((hs.setOut _ (by simp)).dropHmacContext (.inr rfl)).succeed
  | hmacWipe => exact (hs.dropHmacContext (.inl rfl)).succeed
  | ioWipe => exact (hs.wipeDin.setOut [] (Nat.zero_le 64)).succeed
  | softReset => exact (coreInvariants_resetCore s).succeed

/-- So does a word written to CMD, legal or not. -/
theorem CoreInvariants.execWord {w : Word} {s t : State} (hs : CoreInvariants s)
    (h : execWord w s = .next t) : CoreInvariants t := by
  obtain ⟨e, rfl⟩ | ⟨i, -, ht⟩ := execWord_next h
  · exact hs.raise e
  · exact hs.completes ht

end Sys2Proof.Machine

/-! SUPPORT. What a command past its pre-checks does to one element of the state, read off `Completes`. -/

namespace Sys2Proof.Machine

section
variable {i : Instr} {s t : State}

/-- Only SOFT_RESET clears `ESTICKY` (rule R33). -/
theorem Completes.esticky_cases (h : Completes i s t) :
    i = .softReset 0#8 ∨ t.esticky = s.esticky ∨ t.esticky = true := by
  cases h with
  | softReset => exact .inl rfl
  | kwDecodeFails => exact .inr (.inr (raiseIntegrity_esticky s))
  | _ => exact .inr (.inl (by simp))

/-- `K` is written by CTX_INIT in C_EMPTY, by CTX_WIPE and by SOFT_RESET alone (rule R21). -/
theorem Completes.k_cases (h : Completes i s t) :
    t.k = s.k ∨ s.cstate = .cEmpty ∨ (∃ len, i = .ctxWipe len) ∨ ∃ len, i = .softReset len := by
  cases h with
  | ctxInit hc => exact .inr (.inl hc)
  | ctxWipe => exact .inr (.inr (.inl ⟨_, rfl⟩))
  | softReset => exact .inr (.inr (.inr ⟨_, rfl⟩))
  | _ => exact .inl (by simp)

/-- The rows of the table of rule R24, each reached by its command. -/
theorem Completes.cstate_moves (h : Completes i s t) (herr : t.err = .noError) :
    cstateMoves i s.cstate t.cstate := by
  cases h with
  | ctxInit hc => exact ⟨hc, rfl⟩
  | blkEnc hc => exact ⟨hc, by simp [hc]⟩
  | blkDec hc => exact ⟨hc, by simp [hc]⟩
  | @cfbStart _ dir hc => cases dir <;> exact ⟨hc, rfl⟩
  | cfbDataFull hc _ hfull => exact ⟨stream_of_eq_streamState hc, by simp [hfull]⟩
  | cfbDataPartial hc _ hpart => exact ⟨stream_of_eq_streamState hc, by simp [hpart]⟩
  | cfbEnd hc => exact ⟨stream_of_eq_streamState hc, rfl⟩
  | kwDecodeFails => cases (raiseIntegrity_err s).symm.trans herr
  | ctxWipe => exact dropCipherContext_cstate s
  | softReset => exact resetCore_cstate s
  | kwEncode | kwDecode | hmacInit | hmacUpdate | hmacFinal | hmacWipe | ioWipe =>
    simp [cstateMoves]

/-- The rows of the table of rule R28, each reached by its command. -/
theorem Completes.hstate_moves (h : Completes i s t) (herr : t.err = .noError) :
    hstateMoves i s.hstate t.hstate := by
  cases h with
  | hmacInit hh => exact ⟨hh, rfl⟩
  | hmacUpdate hh => exact ⟨hh, rfl⟩
  | hmacFinal hh => exact ⟨hh, rfl⟩
  | kwDecodeFails => cases (raiseIntegrity_err s).symm.trans herr
  | hmacWipe => exact dropHmacContext_hstate .hNone s
  | softReset => exact resetCore_hstate s
  | ctxInit | ctxWipe | blkEnc | blkDec | cfbStart | cfbDataFull | cfbDataPartial | cfbEnd
  | kwEncode | kwDecode | ioWipe => simp [hstateMoves]

/-- How many bytes of result a command that succeeds leaves in `DOUT`, none when it does not write `DOUT`
(rule R30). -/
def resultLength : Instr → Option Nat
  | .blkEnc _ | .blkDec _ => some 8
  | .cfbData len => some len.toNat
  | .kwEncode _ _ => some 49
  | .kwDecode _ _ | .hmacFinal _ => some 32
  | .ioWipe _ | .softReset _ => some 0
  | .ctxInit _ | .ctxWipe _ | .cfbStart _ _ | .cfbEnd _ | .hmacInit _ | .hmacUpdate _
  | .hmacWipe _ => none

/-- A command without a result leaves the last one (rules R30, R31). -/
theorem Completes.result_kept (h : Completes i s t) (hnone : resultLength i = none) :
    t.dout = s.dout ∧ t.olen = s.olen := by
  cases h with
  | ctxInit | ctxWipe | cfbStart | cfbEnd | hmacInit | hmacUpdate | hmacWipe => simp
  | blkEnc | blkDec | cfbDataFull | cfbDataPartial | kwEncode | kwDecode | kwDecodeFails | hmacFinal
  | ioWipe | softReset => cases hnone

/-- A command that succeeds with a result records its length, and nothing older stands behind it
(rules R30, R31). -/
theorem Completes.result_new {n : Nat} (h : Completes i s t) (hsome : resultLength i = some n)
    (herr : t.err = .noError) : t.olen.toNat = n ∧ ∀ j : Fin 64, n ≤ j.val → t.dout[j] = 0#8 := by
  cases h with
  | blkEnc | blkDec | kwEncode | kwDecode | hmacFinal | ioWipe =>
    cases hsome
    exact result_bounds rfl rfl (by simp) (by decide)
  | cfbDataFull _ hlen _ =>
    cases hsome
    exact result_bounds rfl rfl (cfbData_out_length _ s hlen) hlen
  | cfbDataPartial _ hlen _ =>
    cases hsome
    exact result_bounds rfl rfl (cfbData_out_length _ s hlen) hlen
  | softReset =>
    cases hsome
    exact ⟨rfl, fun j _ => by simp⟩
  | kwDecodeFails => cases (raiseIntegrity_err s).symm.trans herr
  | ctxInit | ctxWipe | cfbStart | cfbEnd | hmacInit | hmacUpdate | hmacWipe => cases hsome

end

/-- IntegrityError is no pre-check error: it is found by a computation (rules R251, R254). -/
theorem precheckError_ne_integrityError (i : Instr) (s : State) :
    precheckError i s ≠ some .integrityError := by
  have hc : contextError i s.cstate s.hstate ≠ some .integrityError := by
    unfold contextError
    split <;> (repeat' split) <;> simp
  have hm : methodError i ≠ some .integrityError := by
    unfold methodError
    split <;> (repeat' split) <;> simp
  unfold precheckError
  split
  · rwa [‹contextError i s.cstate s.hstate = _›] at hc
  · split
    · rwa [‹methodError i = _›] at hm
    · split <;> simp

/-! ### The fields of STATUS -/

/-- Bit 4, taken out of the word as a field of one bit. -/
theorem statusWord_getLsbD_four (s : State) : (statusWord s).getLsbD 4 = s.esticky := by
  have field : (statusWord s).extractLsb' 4 1 = BitVec.ofBool s.esticky := by
    simp (disch := decide) only [statusWord, BitVec.extractLsb'_append_eq_of_add_le,
      BitVec.extractLsb'_append_eq_of_le]
    exact BitVec.extractLsb'_eq_self
  simpa using congrArg (·.getLsbD 0) field

theorem statusWord_resetCore (s : State) : statusWord (resetCore s) = 0 := by
  have same : HostSees (resetCore s) State.reset := ⟨rfl, rfl, rfl, rfl, rfl, rfl⟩
  rw [same.statusWord_eq]
  decide

end Sys2Proof.Machine

/-! The statements of 10_state.md, settled. -/

namespace Sys2Proof.Proofs

open Sys2Proof Sys2Proof.Machine

/-- Settles O18: a step is a command, a reset, or moves nothing of the core but `DIN`; each keeps the
invariants, by the rules of the operations it is made of. -/
theorem everyStepKeepsTheInvariants : Obligations.EveryStepKeepsTheInvariants := by
  intro s t hs h
  obtain ⟨din, ps, r, rfl⟩ | ⟨w, rest, -, hw⟩ | ⟨rest, -, rfl⟩ := step_next_cases h
  · exact hs.withHostSide din ps r
  · exact (hs.withHostSide s.din rest .ack).execWord hw
  · exact coreInvariants_resetCore _

/-- Settles O15: the answer of a read is made of elements on which the two states agree. -/
theorem readsRevealOnlyResultsAndStatus : Obligations.ReadsRevealOnlyResultsAndStatus := by
  intro s t off size ps pt hsees hs ht
  rw [step_read hs, step_read ht, hsees.memRead_eq off]
  by_cases ha : admitted off size = true
  · exact .inl ⟨_, if_pos ha, if_pos ha⟩
  · exact .inr ⟨if_neg ha, if_neg ha⟩

/-- Settles O22: every error is raised with `ESTICKY` set, and of the commands that complete only
SOFT_RESET clears it. -/
theorem stickyErrorIsClearedOnlyByReset : Obligations.StickyErrorIsClearedOnlyByReset := by
  refine ⟨fun w s t h herr => ?_, fun s t hset h hclear => ?_⟩
  · obtain ⟨e, rfl⟩ | ⟨i, -, ht⟩ := execWord_next h
    · rfl
    · obtain hok | rfl := ht.err_cases
      · exact absurd hok herr
      · rfl
  · obtain ⟨din, ps, r, rfl⟩ | ⟨w, rest, hp, hw⟩ | ⟨rest, hp, -⟩ := step_next_cases h
    · cases hset.symm.trans hclear
    · obtain ⟨e, rfl⟩ | ⟨i, hdec, ht⟩ := execWord_next hw
      · cases hclear
      · obtain rfl | hkept | hraised := ht.esticky_cases
        · exact ⟨rest, .inr (encode_of_decode hdec ▸ hp)⟩
        · cases hset.symm.trans (hkept.symm.trans hclear)
        · cases hraised.symm.trans hclear
    · exact ⟨rest, .inl hp⟩

/-- Settles O23: a command that succeeds takes its row, and one that fails has only taken its exception. -/
theorem cipherContextFollowsItsTable : Obligations.CipherContextFollowsItsTable := by
  intro i s t h
  refine ⟨fun herr => (completes_of_exec h herr).cstate_moves herr, fun herr => ?_⟩
  obtain ⟨e, rfl⟩ | rfl := exec_error_cases h herr
  · exact raise_cstate e s
  · exact raiseIntegrity_cstate s

/-- Settles O24, as O23 with the rows of `HSTATE`. -/
theorem hmacContextFollowsItsTable : Obligations.HmacContextFollowsItsTable := by
  intro i s t h
  refine ⟨fun herr => (completes_of_exec h herr).hstate_moves herr, fun herr => ?_⟩
  obtain ⟨e, rfl⟩ | rfl := exec_error_cases h herr
  · exact raise_hstate e s
  · exact raiseIntegrity_hstate s

/-- Settles O25: with a key bound, of the commands that complete only CTX_WIPE and SOFT_RESET write `K`. -/
theorem boundKeyIsImmutable : Obligations.BoundKeyIsImmutable := by
  intro s t hbound h hk
  obtain ⟨din, ps, r, rfl⟩ | ⟨w, rest, hp, hw⟩ | ⟨rest, hp, -⟩ := step_next_cases h
  · exact absurd rfl hk
  · obtain ⟨e, rfl⟩ | ⟨i, hdec, ht⟩ := execWord_next hw
    · exact absurd rfl hk
    · obtain hkept | hempty | ⟨len, rfl⟩ | ⟨len, rfl⟩ := ht.k_cases
      · exact absurd hkept hk
      · exact absurd hempty hbound
      · exact ⟨rest, .inr ⟨w, hp, .inl ⟨len, hdec⟩⟩⟩
      · exact ⟨rest, .inr ⟨w, hp, .inr ⟨len, hdec⟩⟩⟩
  · exact ⟨rest, .inl hp⟩

/-- Settles O26: a raised pre-check error leaves `DIN`; past the pre-checks each command wipes it or keeps
it, as its rule says. -/
theorem keyBearingCommandsWipeDin : Obligations.KeyBearingCommandsWipeDin := by
  intro i s t h wipes
  cases exec_next h with
  | raised he => exact ⟨fun hw => by simp [he] at hw, fun _ => rfl⟩
  | completed he ht =>
    cases ht with
    | ctxInit | kwEncode | kwDecode | kwDecodeFails | hmacInit | ioWipe | softReset =>
      exact ⟨fun _ => by simp, fun hkeep => absurd ⟨rfl, he⟩ hkeep⟩
    | ctxWipe | blkEnc | blkDec | cfbStart | cfbDataFull | cfbDataPartial | cfbEnd
    | hmacUpdate | hmacFinal | hmacWipe =>
      exact ⟨fun ⟨hw, _⟩ => (Bool.false_ne_true hw).elim, fun _ => by simp⟩

/-- Settles O27: past the pre-checks a command leaves the last result, sets its own, or fails its
verification and leaves none. -/
theorem resultBufferHoldsTheLatestResult : Obligations.ResultBufferHoldsTheLatestResult := by
  intro i s t h produces
  have hproduces : produces = resultLength i := by cases i <;> rfl
  rw [hproduces]
  cases exec_next h with
  | raised he =>
    refine ⟨fun _ => ⟨rfl, rfl⟩, fun n hpass => by simp [he] at hpass, fun herr => ?_⟩
    cases herr
    exact absurd he (precheckError_ne_integrityError i s)
  | completed hpass ht =>
    refine ⟨fun hcase => ht.result_kept (hcase.resolve_left (not_not.2 hpass)),
      fun n _ hsome herr => ht.result_new hsome herr, fun herr => ?_⟩
    obtain hok | rfl := ht.err_cases
    · cases hok.symm.trans herr
    · exact ⟨rfl, ofBytes_nil 64⟩

/-- Settles O7: the step is the write's move, and the decoder's answer picks its side of `execWord`. -/
theorem stepRunsTheDecodedCommand : Obligations.StepRunsTheDecodedCommand := by
  intro s w rest hp
  have hstep : step s = execWord w { s with pending := rest, reply := .ack } := by
    rw [step_cons hp, hostMove_write_cmd]
  refine ⟨fun i hdec => ?_, fun c hdec => ?_⟩
  · rw [hstep, execWord, hdec]
  · rw [hstep, execWord, hdec]
    rfl

/-- Settles O14: the fields of STATUS, cut out of the word they were joined to. -/
theorem statusWordHoldsItsFields : Obligations.StatusWordHoldsItsFields := by
  intro s
  refine ⟨?_, ?_, ?_, ?_, ?_, ?_, ?_, ?_, ?_, ⟨rfl, rfl, rfl, rfl, rfl, rfl, rfl⟩,
    ⟨rfl, rfl, rfl, rfl⟩, ⟨rfl, rfl, rfl, rfl⟩⟩
  case refine_2 => exact statusWord_getLsbD_four s
  all_goals
    simp (disch := decide) only [statusWord, BitVec.extractLsb'_append_eq_of_add_le,
      BitVec.extractLsb'_append_eq_of_le]
    exact BitVec.extractLsb'_eq_self

/-- Settles O16: `resetCore` writes every element's reset value, and the reset state is its own reset. -/
theorem resetGivesTheResetValues : Obligations.ResetGivesTheResetValues := by
  unfold Obligations.ResetGivesTheResetValues
  intro isReset
  have core (s : State) : isReset (resetCore s) :=
    ⟨fun i => by simp, rfl, rfl, rfl, rfl, rfl, rfl, rfl, rfl, rfl, rfl, rfl,
      statusWord_resetCore s, rfl⟩
  refine ⟨core State.reset, fun s rest hp => ?_, fun s => ?_⟩
  · exact ⟨_, by rw [step_cons hp, hostMove_hardReset], core _, rfl⟩
  · exact ⟨_, rfl, core s, rfl⟩

/-- Settles O17: the reset state is its own reset. -/
theorem invariantsHoldAtReset : Obligations.InvariantsHoldAtReset :=
  coreInvariants_resetCore State.reset

end Sys2Proof.Proofs

/-! SUPPORT. What one step does with an access the bus admits, register by register. -/

namespace Sys2Proof.Machine

/-! ### Reads (rule R65) -/

/-- A step on an admitted read answers the register's word (rules R62, R65). -/
theorem step_read_admitted {s : State} {off : Nat} {rest : List HostMove}
    (hp : s.pending = .read off 4 :: rest) (hal : off % 4 = 0)
    (hmap : off < 0x00C ∨ (0x080 ≤ off ∧ off < 0x140)) :
    step s = .next { s with pending := rest, reply := .data (memRead off s) } := by
  rw [step_read hp, if_pos ((admitted_iff off 4).2 ⟨rfl, hal, hmap⟩)]

@[simp] theorem memRead_cmd (s : State) : memRead 0x000 s = 0 := rfl

@[simp] theorem memRead_status (s : State) : memRead 0x004 s = statusWord s := rfl

@[simp] theorem memRead_param (s : State) : memRead 0x008 s = 0x20202008 := rfl

theorem memRead_din {off : Nat} (s : State) (hlo : 0x080 ≤ off) (hhi : off < 0x100) :
    memRead off s = 0 := by
  unfold memRead
  rw [if_neg (by omega), if_neg (by omega), if_neg (by omega), if_pos hhi]
  rfl

/-! ### Writes (rule R64) -/

/-- A step on an admitted write executes a command word, or hands the word to its register
(rules R62, R64). -/
theorem step_write_admitted {s : State} {off : Nat} {v : Word} {rest : List HostMove}
    (hp : s.pending = .write off 4 v :: rest) (hal : off % 4 = 0)
    (hmap : off < 0x00C ∨ (0x080 ≤ off ∧ off < 0x140)) :
    step s = if off = 0x000 then execWord v { s with pending := rest, reply := .ack }
      else .next (memWrite off v { s with pending := rest, reply := .ack }) := by
  rw [step_cons hp, hostMove, if_pos ((admitted_iff off 4).2 ⟨rfl, hal, hmap⟩)]

theorem memWrite_din {off : Nat} (v : Word) (s : State) (hlo : 0x080 ≤ off) (hhi : off ≤ 0x0FC) :
    memWrite off v s = dinWrite (off - 0x080) v s :=
  if_pos ⟨hlo, hhi⟩

theorem memWrite_readOnly {off : Nat} (v : Word) (s : State) (h : ¬ (0x080 ≤ off ∧ off ≤ 0x0FC)) :
    memWrite off v s = s :=
  if_neg h

/-- A word write to `DIN` writes `DIN` and nothing else of the core (rule R64). -/
theorem step_write_din {s : State} {off : Nat} {v : Word} {rest : List HostMove}
    (hp : s.pending = .write off 4 v :: rest) (hal : off % 4 = 0)
    (hlo : 0x080 ≤ off) (hhi : off ≤ 0x0FC) :
    step s = .next { s with
      din := (dinWrite (off - 0x080) v s).din, pending := rest, reply := .ack } := by
  rw [step_write_admitted hp hal (.inr ⟨hlo, by omega⟩), if_neg (by omega), memWrite_din v _ hlo hhi]
  rfl

end Sys2Proof.Machine

/-! SUPPORT. Every command answers a next state. A meaning is a row of branches, each of which ends the
command in a state of its own, before one last state. -/

namespace Sys2Proof.Machine

/-- A branch that ends the command in a state leaves only the rest of its meaning to answer. -/
theorem exists_next_ite {c : Prop} [Decidable c] {ended : State}
    {rest : Host.Outcome State Fault Refusal} (h : ∃ t, rest = .next t) :
    ∃ t, (if c then .next ended else rest) = .next t := by
  split
  · exact ⟨_, rfl⟩
  · exact h

/-- Every command answers a next state (rules R69, R94): its checks each raise an error, and the context,
method or blob it looks up is either missing, which raises one too, or leads on. -/
theorem exec_answers (i : Instr) (s : State) : ∃ t, exec i s = .next t := by
  cases i with
  | ctxWipe | hmacWipe | ioWipe | softReset => exact exists_next_ite ⟨_, rfl⟩
  | ctxInit | blkEnc | blkDec | cfbStart | hmacInit =>
    exact exists_next_ite (exists_next_ite ⟨_, rfl⟩)
  | cfbEnd | kwEncode | hmacUpdate | hmacFinal =>
    simp only [exec, execCfbEnd, execKwEncode, execHmacUpdate, execHmacFinal]
    split
    · exact ⟨_, rfl⟩
    · exact exists_next_ite ⟨_, rfl⟩
  | cfbData len =>
    rw [exec, execCfbData]
    split
    · exact ⟨_, rfl⟩
    · exact exists_next_ite (exists_next_ite ⟨_, rfl⟩)
  | kwDecode method len =>
    rw [exec, execKwDecode]
    split
    · exact ⟨_, rfl⟩
    · refine exists_next_ite ?_
      split <;> exact ⟨_, rfl⟩

end Sys2Proof.Machine

/-! SUPPORT. A LOAD as a run: its moves write words `i`, `i + 1`, … of the sequence to `DIN`, one a step. -/

namespace Sys2Proof.Machine

/-- Bytes `4i .. 4i+3` of a sequence, with zero bytes past its end: what one `WR` line of a LOAD carries
(rule R102). -/
def loadBytes (data : Bytes) (i : Nat) : Vector Byte 4 :=
  #v[data.getD (4 * i) 0, data.getD (4 * i + 1) 0, data.getD (4 * i + 2) 0, data.getD (4 * i + 3) 0]

/-- The `WR` line of word `i` of a LOAD (rule R102). -/
def loadMove (data : Bytes) (i : Nat) : HostMove :=
  .write (0x080 + 4 * i) 4 (le32 (loadBytes data i))

/-- `DIN` with words `i .. i+n-1` of a sequence placed in it. -/
def placeWords (data : Bytes) (i n : Nat) (din : Vector Byte 128) : Vector Byte 128 :=
  Vector.ofFn fun j => if 4 * i ≤ j.val ∧ j.val < 4 * (i + n) then data.getD j.val 0 else din[j]

theorem loadMoves_eq (data : Bytes) :
    loadMoves data = (List.range' 0 ((data.length + 3) / 4)).map (loadMove data) := by
  rw [← List.range_eq_range']
  rfl

theorem loadBytes_getElem (data : Bytes) (i c : Nat) (hc : c < 4) :
    (loadBytes data i)[c] = data.getD (4 * i + c) 0 := by
  have h : c = 0 ∨ c = 1 ∨ c = 2 ∨ c = 3 := by omega
  rcases h with rfl | rfl | rfl | rfl <;> rfl

@[simp] theorem placeWords_getElem (data : Bytes) (i n : Nat) (din : Vector Byte 128) (j : Nat)
    (hj : j < 128) :
    (placeWords data i n din)[j] =
      if 4 * i ≤ j ∧ j < 4 * (i + n) then data.getD j 0 else din[j] := by
  simp [placeWords]

@[simp] theorem placeWords_zero (data : Bytes) (i : Nat) (din : Vector Byte 128) :
    placeWords data i 0 din = din := by
  ext j hj : 1
  rw [placeWords_getElem, if_neg (by omega)]

/-- The words of a LOAD are placed one after another. -/
theorem placeWords_succ (data : Bytes) (i n : Nat) (din : Vector Byte 128) :
    placeWords data (i + 1) n (placeWords data i 1 din) = placeWords data i (n + 1) din := by
  ext j hj : 1
  simp only [placeWords_getElem]
  split_ifs <;> first | rfl | omega

/-- `DIN` after the write of a word given by its bytes (rules R64, R66). -/
theorem dinWrite_le32_getElem (i : Nat) (b : Vector Byte 4) (s : State) (j : Nat) (hj : j < 128) :
    (dinWrite i (le32 b) s).din[j] =
      if h : i ≤ j ∧ j < i + 4 then b[j - i]'(by omega) else s.din[j] := by
  have byte (c : Nat) (hc : c < 4) : (le32 b).extractLsb' (8 * c) 8 = b[c] := by
    rw [← bytes32le_getElem _ c hc]
    simp only [bytes32le_le32]
  rw [dinWrite_din_getElem]
  by_cases h : i ≤ j ∧ j < i + 4
  · obtain ⟨c, rfl⟩ := Nat.exists_eq_add_of_le h.1
    have hc : c = 0 ∨ c = 1 ∨ c = 2 ∨ c = 3 := by omega
    rcases hc with rfl | rfl | rfl | rfl <;> simp [← byte]
  · rw [dif_neg h, if_neg (by omega), if_neg (by omega), if_neg (by omega), if_neg (by omega)]

/-- One `WR` line places its word. -/
theorem dinWrite_loadBytes (data : Bytes) (i : Nat) (s : State) :
    (dinWrite (4 * i) (le32 (loadBytes data i)) s).din = placeWords data i 1 s.din := by
  ext j hj : 1
  rw [dinWrite_le32_getElem, placeWords_getElem]
  by_cases h : 4 * i ≤ j ∧ j < 4 * i + 4
  · rw [dif_pos h, if_pos (by omega), loadBytes_getElem, Nat.add_sub_cancel' h.1]
  · rw [dif_neg h, if_neg (by omega)]

theorem step_loadMove {data : Bytes} {i : Nat} {s : State} {rest : List HostMove} (hi : i < 32)
    (hp : s.pending = loadMove data i :: rest) :
    step s = .next { s with
      din := placeWords data i 1 s.din, pending := rest, reply := .ack } := by
  rw [step_write_din hp (by omega) (by omega) (by omega), Nat.add_sub_cancel_left,
    dinWrite_loadBytes]

/-- `n` `WR` lines of a LOAD, from that of word `i` on, run as `n` steps. -/
theorem runSteps_loadMoves (data : Bytes) (rest : List HostMove) (n i : Nat) (s : State)
    (hn : i + n ≤ 32) (hp : s.pending = (List.range' i n).map (loadMove data) ++ rest) :
    runSteps n s = .next { s with
      din := placeWords data i n s.din, pending := rest,
      reply := if n = 0 then s.reply else .ack } := by
  induction n generalizing i s with
  | zero =>
    obtain rfl : s.pending = rest := hp
    simp
  | succ n ih =>
    rw [List.range'_succ, List.map_cons, List.cons_append] at hp
    rw [runSteps_succ (step_loadMove (by omega) hp), ih (i + 1) _ (by omega) rfl, placeWords_succ]
    simp

end Sys2Proof.Machine

/-! The statements of 20_memory.md, settled. -/

namespace Sys2Proof.Proofs

open Sys2Proof Sys2Proof.Machine

/-- Settles O13: the moves are those of words 0 to `ceil(len/4) - 1`, and bytes of the last word past the
end of the sequence are zero. -/
theorem loadPlacesTheBytes : Obligations.LoadPlacesTheBytes := by
  intro s data rest hne hlen hp
  have hpos : 0 < data.length := List.length_pos_iff.2 hne
  rw [loadMoves_eq] at hp
  refine ⟨placeWords data 0 ((data.length + 3) / 4) s.din, ?_, fun j => ?_⟩
  · rw [runSteps_loadMoves data rest _ 0 s (by omega) hp, if_neg (by omega)]
  · rw [Fin.getElem_fin, placeWords_getElem]
    by_cases hin : j.val < data.length
    · rw [if_pos (by omega), if_pos hin]
      rfl
    · have hpad : data.getD j.val 0 = 0#8 := List.getD_eq_default _ _ (by omega)
      rw [if_neg hin, hpad]
      simp

/-- Settles O21: a word raises IllegalCommand or runs its command, which answers. -/
theorem everyCommandWordCompletes : Obligations.EveryCommandWordCompletes := by
  intro w s
  obtain ⟨_, -, hw⟩ | ⟨i, -, hw⟩ := execWord_cases w s
  · exact ⟨_, hw⟩
  · exact hw ▸ exec_answers i s

/-- Settles O10: the admitted read answers `memRead`, which is known at each register. -/
theorem readReturnsTheRegister : Obligations.ReadReturnsTheRegister := by
  intro s off rest hp hal
  have read := step_read_admitted hp hal
  refine ⟨?_, ?_, ?_, fun hlo hhi => ?_, fun hlo hhi => ⟨doutWord s (off - 0x100), ?_, ?_⟩⟩
  · rintro rfl
    rw [read (by decide), memRead_cmd]
  · rintro rfl
    rw [read (by decide), memRead_status]
  · rintro rfl
    rw [read (by decide), memRead_param]
  · rw [read (by omega), memRead_din s hlo (by omega)]
  · rw [read (by omega), memRead_dout off s hlo]
  · exact doutWord_toNat s (off - 0x100) (by omega)

/-- Settles O11: the admitted write executes its word at CMD, stores it in the range of `DIN` and is ignored
elsewhere. -/
theorem writeReachesTheRegister : Obligations.WriteReachesTheRegister := by
  intro s off v rest hp hal s'
  have write := step_write_admitted hp hal
  refine ⟨?_, fun hlo hhi => ⟨_, step_write_din hp hal hlo hhi, fun j => ?_⟩, fun hro => ?_⟩
  · rintro rfl
    exact write (by decide)
  · have shift (c : Nat) : j.val + 0x080 = off + c ↔ j.val = off - 0x080 + c := by omega
    rw [Fin.getElem_fin, dinWrite_din_getElem]
    simp only [shift, show j.val + 0x080 = off ↔ j.val = off - 0x080 by omega, Fin.getElem_fin]
  · rw [write (by omega), if_neg (by omega), memWrite_readOnly v _ (by omega)]

end Sys2Proof.Proofs

/-! SUPPORT. The encoder against the decoder, and the rows of the opcode table read field by field. -/

namespace Sys2Proof

/-! ### The fields of a word -/

/-- A word is known by its four fields (rules R90, R91). -/
theorem eq_append_iff {w : Word} {rsv len arg opc : Byte} :
    w = rsv ++ len ++ arg ++ opc ↔
      fieldRsv w = rsv ∧ fieldLen w = len ∧ fieldArg w = arg ∧ fieldOpc w = opc := by
  constructor
  · rintro rfl
    obtain ⟨hopc, harg, hlen, hrsv⟩ := fields_of_append rsv len arg opc
    exact ⟨hrsv, hlen, harg, hopc⟩
  · rintro ⟨rfl, rfl, rfl, rfl⟩
    exact word_eq_fields w

/-- A mask acts on each field of a word by itself. -/
theorem and_append_eq_iff {w : Word} {r l a o rsv len arg opc : Byte} :
    w &&& (r ++ l ++ a ++ o) = rsv ++ len ++ arg ++ opc ↔
      fieldRsv w &&& r = rsv ∧ fieldLen w &&& l = len ∧ fieldArg w &&& a = arg ∧
        fieldOpc w &&& o = opc := by
  obtain ⟨hopc, harg, hlen, hrsv⟩ := fields_of_append r l a o
  have cut (start : Nat) (v : Word) : (w &&& v).extractLsb' start 8 =
      w.extractLsb' start 8 &&& v.extractLsb' start 8 := BitVec.extractLsb'_and
  rw [eq_append_iff]
  simp only [fieldRsv, fieldLen, fieldArg, fieldOpc] at *
  simp only [cut, hopc, harg, hlen, hrsv]

/-- All bits of a byte but the lowest are 0 exactly in 0 and 1. -/
theorem and_0xFE_eq_zero_iff {b : Byte} : b &&& 0xFE#8 = 0#8 ↔ b = 0#8 ∨ b = 1#8 := by
  decide +revert

/-! ### The encoder and the decoder -/

/-- A command's own fields select the command (rules R93, R94, R98). -/
theorem decodeFields_fields (i : Instr) : decodeFields i.opcode i.arg i.len = .ok i := by
  cases i with
  | cfbStart dir len => cases dir <;> rfl
  | _ => rfl

theorem fields_of_encode (i : Instr) :
    fieldOpc (encode i) = i.opcode ∧ fieldArg (encode i) = i.arg ∧ fieldLen (encode i) = i.len ∧
      fieldRsv (encode i) = 0#8 :=
  fields_of_append 0#8 i.len i.arg i.opcode

/-- The encoder's word is never illegal, and no field of it is dropped (rules R94, R101). -/
theorem decode_encode (i : Instr) : decode (encode i) = .ok i := by
  rw [encode, decode_append, if_pos rfl, decodeFields_fields]

/-- The encoder and the decoder are inverse to each other (rules R94, R101). -/
theorem decode_eq_ok_iff {w : Word} {i : Instr} : decode w = .ok i ↔ encode i = w :=
  ⟨Machine.encode_of_decode, fun h => h ▸ decode_encode i⟩

/-- The sum of rule R101. -/
theorem encode_toNat (i : Instr) :
    (encode i).toNat = i.opcode.toNat + 2 ^ 8 * i.arg.toNat + 2 ^ 16 * i.len.toNat :=
  Machine.le32_toNat #v[i.opcode, i.arg, i.len, 0#8]

/-! ### The opcode table -/

/-- The bits of `ARG` that are 0 in every word of the command (rules R91, R98). -/
def Instr.argMask : Instr → Byte
  | .cfbStart _ _ => 0xFE
  | .kwEncode _ _ | .kwDecode _ _ => 0x00
  | .ctxInit _ | .ctxWipe _ | .blkEnc _ | .blkDec _ | .cfbData _ | .cfbEnd _
  | .hmacInit _ | .hmacUpdate _ | .hmacFinal _ | .hmacWipe _ | .ioWipe _ | .softReset _ => 0xFF

/-- The row of the opcode table for a command: `RSV` and `OPC` are fixed, `LEN` is free, and `ARG` is as
free as the command leaves it (rule R95). -/
def Instr.row (i : Instr) : OpcodeRow :=
  ⟨i.mnemonic, 0#8 ++ 0#8 ++ 0#8 ++ i.opcode, 0xFF#8 ++ 0x00#8 ++ i.argMask ++ 0xFF#8⟩

/-- The opcode table is the list of the commands' rows, of each command with any operands. -/
theorem opcodeTable_eq_map : opcodeTable =
    [Instr.ctxInit 0, .ctxWipe 0, .blkEnc 0, .blkDec 0, .cfbStart .enc 0, .cfbData 0, .cfbEnd 0,
      .kwEncode 0 0, .kwDecode 0 0, .hmacInit 0, .hmacUpdate 0, .hmacFinal 0, .hmacWipe 0, .ioWipe 0,
      .softReset 0].map Instr.row := rfl

theorem Instr.row_mem (i : Instr) : i.row ∈ opcodeTable := by
  cases i <;> simp only [Instr.row, Instr.mnemonic, Instr.opcode, Instr.argMask] <;> decide

/-- The table has no row but those of the commands. -/
theorem exists_row_eq {r : OpcodeRow} (h : r ∈ opcodeTable) : ∃ i : Instr, i.row = r := by
  rw [opcodeTable_eq_map] at h
  obtain ⟨i, -, hi⟩ := List.mem_map.1 h
  exact ⟨i, hi⟩

/-- No two rows have one mnemonic. -/
theorem row_eq_of_mnemonic_eq : ∀ r ∈ opcodeTable, ∀ r' ∈ opcodeTable,
    r.mnemonic = r'.mnemonic → r = r' := by
  decide

/-- A word fits a command's row when its `OPC` is the command's, and its `RSV` and the bits of `ARG` that
the command fixes are 0 (rules R91, R95). -/
theorem fits_row_iff {w : Word} {i : Instr} :
    w &&& i.row.mask = i.row.pattern ↔
      fieldRsv w = 0#8 ∧ fieldArg w &&& i.argMask = 0#8 ∧ fieldOpc w = i.opcode := by
  have ones (b : Byte) : b &&& 0xFF#8 = b := BitVec.and_allOnes
  simp only [Instr.row, and_append_eq_iff, ones, BitVec.and_zero, true_and]

/-- A command's own `ARG` has the bits 0 that its row fixes. -/
theorem arg_and_argMask (i : Instr) : i.arg &&& i.argMask = 0#8 := by
  cases i with
  | cfbStart dir len =>
    cases dir
    · exact and_0xFE_eq_zero_iff.2 (.inl rfl)
    · exact and_0xFE_eq_zero_iff.2 (.inr rfl)
  | kwEncode method len | kwDecode method len => exact BitVec.and_zero
  | _ => exact BitVec.zero_and

/-- A command's `OPC`, with an `ARG` whose fixed bits are 0, selects a command of the same mnemonic
(rules R94, R98). -/
theorem decodeFields_of_and_argMask (i : Instr) {arg : Byte} (len : Byte)
    (h : arg &&& i.argMask = 0#8) :
    ∃ j, decodeFields i.opcode arg len = .ok j ∧ j.mnemonic = i.mnemonic := by
  cases i with
  | cfbStart dir _ =>
    obtain rfl | rfl := and_0xFE_eq_zero_iff.1 h
    · exact ⟨.cfbStart .enc len, rfl, rfl⟩
    · exact ⟨.cfbStart .dec len, rfl, rfl⟩
  | kwEncode => exact ⟨.kwEncode arg len, rfl, rfl⟩
  | kwDecode => exact ⟨.kwDecode arg len, rfl, rfl⟩
  | _ =>
    obtain rfl : arg = 0#8 := BitVec.and_allOnes.symm.trans h
    exact ⟨_, rfl, rfl⟩

/-- The words that decode to a command of a mnemonic are those that fit its row (rule R95). -/
theorem decodes_iff_fits_row {w : Word} {i : Instr} :
    (∃ j, decode w = .ok j ∧ j.mnemonic = i.mnemonic) ↔ w &&& i.row.mask = i.row.pattern := by
  constructor
  · rintro ⟨j, hj, hm⟩
    obtain rfl := decode_eq_ok_iff.1 hj
    obtain ⟨hopc, harg, -, hrsv⟩ := fields_of_encode j
    rw [← row_eq_of_mnemonic_eq _ j.row_mem _ i.row_mem hm, fits_row_iff, hopc, harg, hrsv]
    exact ⟨rfl, arg_and_argMask j, rfl⟩
  · rw [fits_row_iff]
    rintro ⟨hrsv, harg, hopc⟩
    rw [decode, if_pos hrsv, hopc]
    exact decodeFields_of_and_argMask i (fieldLen w) harg

/-! ### The illegal words -/

/-- The codes of the twelve commands that take no argument (rules R93, R94). -/
def noArgOpcodes : List Byte :=
  [0x01, 0x02, 0x10, 0x11, 0x21, 0x22, 0x40, 0x41, 0x42, 0x43, 0x50, 0x7F]

theorem noArgOpcodes_eq_map : noArgOpcodes =
    [Instr.ctxInit 0, .ctxWipe 0, .blkEnc 0, .blkDec 0, .cfbData 0, .cfbEnd 0, .hmacInit 0,
      .hmacUpdate 0, .hmacFinal 0, .hmacWipe 0, .ioWipe 0, .softReset 0].map Instr.opcode := rfl

/-- The four conditions of rule R97 on the fields of a word. -/
def IllegalFields (opc arg rsv : Byte) : Prop :=
  rsv ≠ 0#8 ∨ opc ∉ noArgOpcodes ++ [0x20#8, 0x30#8, 0x31#8] ∨ (opc ∈ noArgOpcodes ∧ arg ≠ 0#8) ∨
    (opc = 0x20#8 ∧ 1 < arg.toNat)

/-- The fields of a command meet none of the four conditions. -/
theorem not_illegalFields (i : Instr) : ¬ IllegalFields i.opcode i.arg 0#8 := by
  cases i with
  | cfbStart dir len => cases dir <;> simp [IllegalFields, noArgOpcodes, Instr.opcode, Instr.arg]
  | _ => simp [IllegalFields, noArgOpcodes, Instr.opcode, Instr.arg]

/-- Fields that meet none of the four conditions select a command. -/
theorem decodeFields_of_not_illegalFields {opc arg rsv : Byte} (len : Byte)
    (h : ¬ IllegalFields opc arg rsv) : ∃ i, decodeFields opc arg len = .ok i := by
  simp only [IllegalFields, not_or, not_and, not_not, not_lt, List.mem_append] at h
  obtain ⟨-, hopc, hnoArg, hdir⟩ := h
  suffices ∃ i : Instr, i.opcode = opc ∧ arg &&& i.argMask = 0#8 by
    obtain ⟨i, rfl, harg⟩ := this
    obtain ⟨j, hj, -⟩ := decodeFields_of_and_argMask i len harg
    exact ⟨j, hj⟩
  by_cases hmem : opc ∈ noArgOpcodes
  · obtain rfl := hnoArg hmem
    rw [noArgOpcodes_eq_map] at hmem
    obtain ⟨i, -, hi⟩ := List.mem_map.1 hmem
    exact ⟨i, hi, BitVec.zero_and⟩
  · have hother := hopc hmem
    simp only [List.mem_cons, List.not_mem_nil, or_false] at hother
    obtain rfl | rfl | rfl := hother
    · have hle := hdir rfl
      exact ⟨.cfbStart .enc len, rfl, and_0xFE_eq_zero_iff.2 (by bv_omega)⟩
    · exact ⟨.kwEncode arg len, rfl, BitVec.and_zero⟩
    · exact ⟨.kwDecode arg len, rfl, BitVec.and_zero⟩

/-- A word selects a command exactly when its fields meet none of the four conditions (rules R94, R97). -/
theorem decodes_iff_not_illegalFields {rsv len arg opc : Byte} :
    (∃ i, decode (rsv ++ len ++ arg ++ opc) = .ok i) ↔ ¬ IllegalFields opc arg rsv := by
  constructor
  · rintro ⟨i, hi⟩
    obtain ⟨rfl, -, rfl, rfl⟩ := eq_append_iff.1 (decode_eq_ok_iff.1 hi)
    obtain ⟨hopc, harg, -, hrsv⟩ := fields_of_encode i
    rw [hopc, harg, hrsv]
    exact not_illegalFields i
  · intro h
    have hrsv : rsv = 0#8 := not_not.1 fun hne => h (.inl hne)
    rw [decode_append, if_pos hrsv]
    exact decodeFields_of_not_illegalFields len h

end Sys2Proof

/-! The statements of 30_encoding.md, settled. -/

namespace Sys2Proof.Proofs

open Sys2Proof Sys2Proof.Machine

/-- Settles O1: the encoder's word has `RSV` 0 and the command's own fields, which select the command. -/
theorem decodeEncodeRoundTrip : Obligations.DecodeEncodeRoundTrip := decode_encode

/-- Settles O3: the decoded command carries every field of the word. -/
theorem decodedWordReencodes : Obligations.DecodedWordReencodes := fun _ _ => encode_of_decode

/-- Settles O4: every row is the row of a command, and the words that fit it are those that decode to its
mnemonic. A word that fits two rows decodes once, so the rows have one mnemonic and are one. -/
theorem wordSelectsRowByMatchAndMask : Obligations.WordSelectsRowByMatchAndMask := by
  refine ⟨fun w r hr => ?_, fun w r r' hr hr' h h' => ?_, fun w i _ => ⟨i.row, i.row_mem, rfl⟩⟩
  · obtain ⟨i, rfl⟩ := exists_row_eq hr
    exact decodes_iff_fits_row
  · obtain ⟨i, rfl⟩ := exists_row_eq hr
    obtain ⟨i', rfl⟩ := exists_row_eq hr'
    obtain ⟨j, hj, hm⟩ := decodes_iff_fits_row.2 h
    obtain ⟨j', hj', hm'⟩ := decodes_iff_fits_row.2 h'
    obtain rfl : j = j' := Except.ok.inj (hj.symm.trans hj')
    exact row_eq_of_mnemonic_eq _ hr _ hr' (hm.symm.trans hm')

/-- Settles O5: the words that decode are those that meet none of the four conditions, and a word that
does not decode raises IllegalCommand. -/
theorem illegalWordRaisesIllegalCommand : Obligations.IllegalWordRaisesIllegalCommand := by
  intro opc arg len rsv s w noArg illegal
  have legal : (∃ i, decode w = .ok i) ↔ ¬ illegal := decodes_iff_not_illegalFields
  obtain ⟨c, hdec, hw⟩ | ⟨i, hdec, hw⟩ := execWord_cases w s
  · refine ⟨fun _ => hw, fun hleg => ?_⟩
    obtain ⟨i, hi⟩ := legal.2 hleg
    cases hdec.symm.trans hi
  · exact ⟨fun hill => absurd hill (legal.1 ⟨i, hdec⟩), fun _ => ⟨i, hdec, hw⟩⟩

/-- Settles O20: a command answers, and past its pre-checks it completes, which is a success but for the
KW_DECODE whose verification fails. -/
theorem commandsPastTheirPrechecksSucceed : Obligations.CommandsPastTheirPrechecksSucceed := by
  intro i s hpre
  obtain ⟨t, h⟩ := exec_answers i s
  refine ⟨t, h, ?_⟩
  cases exec_next h with
  | raised he => cases hpre.symm.trans he
  | completed _ ht =>
    cases ht with
    | kwDecodeFails => exact .inr ⟨⟨_, _, rfl⟩, raiseIntegrity_err s, raiseIntegrity_esticky s⟩
    | softReset => exact .inl ⟨succeed_err _, rfl⟩
    | _ => exact .inl ⟨succeed_err _, by simp⟩

/-- Settles O2: the word is its bytes in order, and the fields and the example words are computed. -/
theorem encodeIsTheSumOfFields : Obligations.EncodeIsTheSumOfFields :=
  ⟨encode_toNat, fun _ => ⟨rfl, rfl⟩, fun _ _ => ⟨rfl, rfl⟩, by decide⟩

/-- Settles O6: the decoder is run on each of the eighteen words. -/
theorem specSampleWordsDecode : Obligations.SpecSampleWordsDecode := by
  unfold Obligations.SpecSampleWordsDecode
  decide

end Sys2Proof.Proofs

/-! SUPPORT. The 32 rounds undone by the reversed subkey order, and the key schedule and the halves of a
block as sums of bytes. -/

namespace Sys2Proof.Machine

/-! ### The rounds and their reversal (rules R124 to R131) -/

section
variable {sbox : SBox} {k : Subkeys} {sel sel' : Nat → Fin 8}

/-- A round on the swapped result of the same round gives back its input, swapped: the round without its
swap undoes itself. -/
theorem feistelRound_swap_feistelRound (sbox : SBox) (k : Word) (x : Halves) :
    feistelRound sbox k (feistelRound sbox k x).swap = x.swap := by
  simp only [feistelRound_eq_swap, Prod.swap_swap, lastRound_lastRound]

/-- The last `m` of `n` rounds, undone by `m` rounds in the reversed subkey order. -/
theorem rounds_swap_rounds {n : Nat} (hrev : ∀ r < n, sel' (r + 1) = sel (n - r)) (x : Halves)
    (m : Nat) (hm : m ≤ n) :
    rounds sbox k sel' m (rounds sbox k sel n x).swap = (rounds sbox k sel (n - m) x).swap := by
  induction m with
  | zero => rfl
  | succ m ih =>
    have hpred : n - m = n - (m + 1) + 1 := by omega
    have hsel : sel' (m + 1) = sel (n - (m + 1) + 1) := hpred ▸ hrev m hm
    rw [rounds_succ, ih (by omega), hpred, rounds_succ]
    simp only [hsel, feistelRound_swap_feistelRound]

/-- The last round is a round whose halves are swapped back, so a block is put together from the swapped
halves of 32 equal rounds (rules R127 to R130). -/
theorem crypt_eq_rounds_swap (sbox : SBox) (k : Subkeys) (sel : Nat → Fin 8) (b : Block) :
    crypt sbox k sel b = ofHalves (rounds sbox k sel 32 (toHalves b)).swap := by
  rw [rounds_succ, feistelRound_eq_swap, Prod.swap_swap]
  rfl

/-- The 32 rounds in the reversed subkey order undo the 32 rounds. -/
theorem crypt_crypt (hrev : ∀ r < 32, sel' (r + 1) = sel (32 - r)) (b : Block) :
    crypt sbox k sel' (crypt sbox k sel b) = b := by
  rw [crypt_eq_rounds_swap, crypt_eq_rounds_swap, toHalves_ofHalves, rounds_swap_rounds hrev _ 32 le_rfl,
    Nat.sub_self, rounds_zero, Prod.swap_swap, ofHalves_toHalves]

/-- The rounds as a loop over the round numbers, as the rules write them (rules R129, R130). -/
theorem rounds_eq_foldl (sbox : SBox) (k : Subkeys) (sel : Nat → Fin 8) (n : Nat) (x : Halves) :
    rounds sbox k sel n x =
      (List.range n).foldl (fun x r => feistelRound sbox k[sel (r + 1)] x) x := by
  induction n with
  | zero => rfl
  | succ n ih => rw [rounds_succ, ih, List.range_succ, List.foldl_append, List.foldl_cons, List.foldl_nil]

end

/-- Decryption takes the subkeys of encryption from the last to the first (rule R125). -/
theorem dsel_eq_ksel_reversed : ∀ r < 32, dsel (r + 1) = ksel (32 - r) := by
  decide

theorem ksel_eq_dsel_reversed : ∀ r < 32, ksel (r + 1) = dsel (32 - r) := by
  decide

/-- Rule R131 on the subkeys themselves, as the bound key holds them. -/
theorem decWords_encWords (sbox : SBox) (k : Subkeys) (b : Block) :
    decWords sbox k (encWords sbox k b) = b :=
  crypt_crypt dsel_eq_ksel_reversed b

theorem encWords_decWords (sbox : SBox) (k : Subkeys) (b : Block) :
    encWords sbox k (decWords sbox k b) = b :=
  crypt_crypt ksel_eq_dsel_reversed b

/-! ### Words cut out of byte sequences (rules R11, R123, R126) -/

/-- A word cut out of a sequence is made of four successive bytes. -/
theorem slice_four {m : Nat} (v : Vector Byte m) (off : Nat) (h : off + 4 ≤ m) :
    slice v off 4 h = #v[v[off], v[off + 1], v[off + 2], v[off + 3]] := by
  ext i hi : 1
  rw [slice_getElem]
  interval_cases i <;> rfl

/-- The sum of rule R11, for a word cut out of a sequence. -/
theorem le32_slice_toNat {m : Nat} (v : Vector Byte m) (off : Nat) (h : off + 4 ≤ m) :
    (le32 (slice v off 4 h)).toNat =
      v[off].toNat + 2 ^ 8 * v[off + 1].toNat + 2 ^ 16 * v[off + 2].toNat +
        2 ^ 24 * v[off + 3].toNat := by
  rw [slice_four, le32_toNat]
  rfl

/-- Subkey `i` is the word at byte `4 i` of the key (rule R123). -/
theorem keyWords_getElem (key : Key) (i : Fin 8) :
    (keyWords key)[i] = le32 (slice key (4 * i.val) 4 (by omega)) := by
  simp [keyWords]

/-- The subkeys of the key operand, cut out of `DIN` (rules R123, R134). -/
theorem keyWords_keyOperand (s : State) :
    keyWords (keyOperand s) = Vector.ofFn fun i : Fin 8 =>
      le32 #v[s.din[4 * i.val], s.din[4 * i.val + 1], s.din[4 * i.val + 2], s.din[4 * i.val + 3]] := by
  simp only [keyWords, slice_four, keyOperand, dinField_getElem, Nat.zero_add]

end Sys2Proof.Machine

/-! SUPPORT. A command as an equation: what it raises when a pre-check fails, and the state it ends in past
them; and the two block commands, each of which runs one function on its operand. -/

namespace Sys2Proof.Machine

section
variable {i : Instr} {s : State}

/-- The error of the pre-checks is raised, and nothing else happens (rules R252, R253). -/
theorem exec_of_precheckError {e : ErrorKind} (he : precheckError i s = some e) :
    exec i s = .next (raise e s) := by
  obtain ⟨t, h⟩ := exec_answers i s
  cases exec_next h with
  | raised he' =>
    obtain rfl := Option.some.inj (he.symm.trans he')
    exact h
  | completed hnone _ => cases he.symm.trans hnone

/-- A command that passes its pre-checks completes (rules R94, R252). -/
theorem exec_of_precheckError_eq_none (hnone : precheckError i s = none) :
    ∃ t, exec i s = .next t ∧ Completes i s t := by
  obtain ⟨t, h⟩ := exec_answers i s
  cases exec_next h with
  | raised he => cases he.symm.trans hnone
  | completed _ ht => exact ⟨t, h, ht⟩

end

/-- A block as the result: its bytes, and its length in `OLEN` (rules R76, R136, R137). -/
theorem setOut_block (b : Block) (s : State) :
    setOut b.toList s = { s with dout := ofBytes 64 b.toList, olen := 8#8 } := by
  rw [setOut, Vector.length_toList]

/-- Command `i` answers, under a bound key, the function `f` of the subkeys and of the block in `DIN`. -/
def AnswersBlock (i : Instr) (f : Subkeys → Block → Block) : Prop :=
  ∀ s : State, s.cstate = .cKeyed →
    exec i s = .next (succeed (setOut (f s.k (blockOperand s)).toList s))

theorem answersBlock_blkEnc : AnswersBlock (.blkEnc 8#8) (encWords Config.sbox) := by
  intro s hc
  obtain ⟨t, h, ht⟩ := exec_of_precheckError_eq_none
    (precheckError_eq_none (i := .blkEnc 8#8) (s := s) (if_pos hc) rfl rfl)
  cases ht with
  | blkEnc => exact h

theorem answersBlock_blkDec : AnswersBlock (.blkDec 8#8) (decWords Config.sbox) := by
  intro s hc
  obtain ⟨t, h, ht⟩ := exec_of_precheckError_eq_none
    (precheckError_eq_none (i := .blkDec 8#8) (s := s) (if_pos hc) rfl rfl)
  cases ht with
  | blkDec => exact h

/-- The next state of a block command, written out field by field (rules R136, R137). -/
theorem AnswersBlock.exec_eq {i : Instr} {f : Subkeys → Block → Block} (hi : AnswersBlock i f)
    {s : State} (hc : s.cstate = .cKeyed) :
    exec i s = .next { s with
      dout := ofBytes 64 (f s.k (ofBytes 8 (s.din.toList.take 8))).toList
      olen := 8#8
      err := .noError } := by
  rw [hi s hc, setOut_block, blockOperand_eq]
  rfl

/-- The valid bytes of a block result are the block (rules R30, R76). -/
theorem setOut_block_dout_take (b : Block) (s : State) :
    (setOut b.toList s).dout.toList.take 8 = b.toList := by
  have h := setOut_dout_take b.toList s (by simp)
  rwa [Vector.length_toList] at h

theorem blockOperand_toList (s : State) : (blockOperand s).toList = s.din.toList.take 8 := by
  rw [blockOperand_eq, toList_ofBytes _ (by simp)]

/-- A block loaded into `DIN` is the operand of the next block command (rules R76, R102). -/
theorem blockOperand_withDin (b : Block) (s : State) : blockOperand (withDin b.toList s) = b := by
  rw [blockOperand, dinField_withDin, List.drop_zero, ofBytes_toList]

/-- A block command, its result brought back to `DIN`, and then the command of the inverse function give
the first block back. -/
theorem AnswersBlock.round_trip {i j : Instr} {f g : Subkeys → Block → Block} (hi : AnswersBlock i f)
    (hj : AnswersBlock j g) (hinv : ∀ k b, g k (f k b) = b) {s : State} (hc : s.cstate = .cKeyed) :
    ∃ t u, exec i s = .next t ∧ exec j (withDin (t.dout.toList.take 8) t) = .next u ∧
      u.dout.toList.take 8 = s.din.toList.take 8 := by
  refine ⟨_, _, hi s hc, hj _ hc, ?_⟩
  simp only [succeed_dout, setOut_block_dout_take, blockOperand_withDin, withDin_k, succeed_k, setOut_k,
    hinv]
  exact blockOperand_toList s

end Sys2Proof.Machine

/-! The statements of 40_cipher_core.md, settled. -/

namespace Sys2Proof.Proofs

open Sys2Proof Sys2Proof.Machine

/-- Settles O28: the subkey order of each direction is that of the other reversed, and the reversed order
undoes the rounds; a function with an inverse on both sides is a bijection. -/
theorem decryptionInvertsEncryption : Obligations.DecryptionInvertsEncryption := by
  intro sbox key
  have hdec (b : Block) : dec sbox key (enc sbox key b) = b := decWords_encWords sbox (keyWords key) b
  have henc (b : Block) : enc sbox key (dec sbox key b) = b := encWords_decWords sbox (keyWords key) b
  exact ⟨hdec, henc, Function.bijective_iff_has_inverse.2 ⟨dec sbox key, hdec, henc⟩⟩

/-- Settles O35: each of the two commands answers its function, and the functions undo each other. -/
theorem blkDecUndoesBlkEnc : Obligations.BlkDecUndoesBlkEnc := fun _ hc =>
  ⟨answersBlock_blkEnc.round_trip answersBlock_blkDec (decWords_encWords Config.sbox) hc,
    answersBlock_blkDec.round_trip answersBlock_blkEnc (encWords_decWords Config.sbox) hc⟩

/-- Settles O29: the two orders are computed, a subkey is the sum of its four bytes, and the rounds are the
loop over their numbers. -/
theorem subkeyOrders : Obligations.SubkeyOrders := by
  refine ⟨by decide, by decide, by decide, fun key i => ?_, fun sbox k b => ?_,
    fun sbox key b => ⟨rfl, rfl⟩⟩
  · rw [keyWords_getElem, le32_slice_toNat]
  · simp only [encWords, decWords, crypt, rounds_eq_foldl, and_self]

/-- Settles O30: the bits of the substitution and of the rotation, and the bytes of the halves. -/
theorem roundFunctionSubstitutesThenRotates : Obligations.RoundFunctionSubstitutesThenRotates := by
  intro sbox n k
  refine ⟨fun i => ?_, fun j => ?_, fun n1 n2 => ⟨rfl, rfl⟩, fun b => ?_, fun x i => ?_⟩
  · apply BitVec.eq_of_getLsbD_eq
    intro j hj
    rw [BitVec.getLsbD_extractLsb', sub_getLsbD _ _ _ _ hj, decide_eq_true hj, Bool.true_and]
  · exact rotl32_getLsbD _ 11 j (by decide) (by decide) j.isLt
  · exact ⟨le32_slice_toNat b 0 _, le32_slice_toNat b 4 _⟩
  · simp [ofHalves_getElem, bytes32le_getElem]

/-- Settles O31: the context check stands before the size check, and past both the command binds the words
of the key operand. -/
theorem ctxInitBindsTheKey : Obligations.CtxInitBindsTheKey := by
  refine ⟨fun len => decode_encode (.ctxInit len), fun len s => ⟨fun hc => ?_, fun hc hl => ?_,
    fun hc hl => ?_⟩⟩
  · exact exec_of_precheckError (precheckError_of_context (if_neg hc))
  · exact exec_of_precheckError (precheckError_of_size (if_pos hc) rfl (beq_false_of_ne hl))
  · obtain ⟨t, h, ht⟩ := exec_of_precheckError_eq_none
      (precheckError_eq_none (if_pos hc) rfl (beq_of_eq hl) : precheckError (.ctxInit len) s = none)
    cases ht with
    | ctxInit =>
      rw [h, keyWords_keyOperand]
      rfl

/-- Settles O32: the command has no context check, so its size alone decides, in every state. -/
theorem ctxWipeDestroysTheContext : Obligations.CtxWipeDestroysTheContext := by
  refine ⟨fun len => decode_encode (.ctxWipe len), fun len s => ⟨fun hl => ?_, fun hl => ?_⟩⟩
  · exact exec_of_precheckError (precheckError_of_size rfl rfl (beq_false_of_ne hl))
  · obtain ⟨t, h, ht⟩ := exec_of_precheckError_eq_none
      (precheckError_eq_none rfl rfl (beq_of_eq hl) : precheckError (.ctxWipe len) s = none)
    cases ht with
    | ctxWipe => exact h

/-- Settles O33: the context check stands before the size check, and past both the block is encrypted. -/
theorem blkEncEncryptsTheBlock : Obligations.BlkEncEncryptsTheBlock := by
  refine ⟨fun len => decode_encode (.blkEnc len), fun len s => ⟨fun hc => ?_, fun hc hl => ?_,
    fun hc hl => ?_⟩⟩
  · exact exec_of_precheckError (precheckError_of_context (if_neg hc))
  · exact exec_of_precheckError (precheckError_of_size (if_pos hc) rfl (beq_false_of_ne hl))
  · obtain rfl : len = 8#8 := BitVec.eq_of_toNat_eq hl
    exact answersBlock_blkEnc.exec_eq hc

/-- Settles O34, as O33 with the block decrypted. -/
theorem blkDecDecryptsTheBlock : Obligations.BlkDecDecryptsTheBlock := by
  refine ⟨fun len => decode_encode (.blkDec len), fun len s => ⟨fun hc => ?_, fun hc hl => ?_,
    fun hc hl => ?_⟩⟩
  · exact exec_of_precheckError (precheckError_of_context (if_neg hc))
  · exact exec_of_precheckError (precheckError_of_size (if_pos hc) rfl (beq_false_of_ne hl))
  · obtain rfl : len = 8#8 := BitVec.eq_of_toNat_eq hl
    exact answersBlock_blkDec.exec_eq hc

end Sys2Proof.Proofs

/-! SUPPORT. A CFB run segment by segment: its induction, its first segment and the rest, its register,
runs put together, and decryption undoing encryption. -/

namespace Sys2Proof.Machine

/-- Induction along the segments of a run: off a sequence that is not empty the run takes its first eight
bytes, or what there is (rule R162). -/
theorem segments_induction {motive : Bytes → Prop} (nil : motive [])
    (segment : ∀ d, d ≠ [] → motive (d.drop 8) → motive d) (d : Bytes) : motive d := by
  induction hn : d.length using Nat.strong_induction_on generalizing d with
  | _ n ih =>
    by_cases hd : d = []
    · exact hd ▸ nil
    · have hpos : 0 < d.length := List.length_pos_iff.2 hd
      exact segment d hd (ih _ (by simp; omega) (d.drop 8) rfl)

section
variable (sbox : SBox) (dir : Dir) (k : Subkeys) (sr : Block)

/-- The output of a run is its first segment's and then that of the run over the rest; a partial first
segment has no rest, so the cut is at byte 8 in any case (rule R162). -/
theorem cfbRun_take_drop (d : Bytes) :
    (cfbRun sbox dir k sr d).1.take 8 = (cfbStep sbox dir k sr (d.take 8)).1 ∧
      (cfbRun sbox dir k sr d).1.drop 8 =
        (cfbRun sbox dir k (cfbStep sbox dir k sr (d.take 8)).2 (d.drop 8)).1 := by
  have hseg : (cfbStep sbox dir k sr (d.take 8)).1.length = min 8 d.length := by
    rw [cfbStep_length _ _ _ _ _ (by simp), List.length_take]
  by_cases hd : d = []
  · subst hd
    exact ⟨rfl, rfl⟩
  rw [cfbRun_cons _ _ _ _ _ hd]
  by_cases h8 : 8 ≤ d.length
  · exact ⟨List.take_left' (by omega), List.drop_left' (by omega)⟩
  · rw [List.drop_eq_nil_of_le (by omega : d.length ≤ 8), cfbRun_nil, List.append_nil]
    have hle := hseg.trans_le (min_le_left 8 d.length)
    exact ⟨List.take_of_length_le hle, List.drop_eq_nil_of_le hle⟩

/-- A run that ends in a partial segment leaves the register zero (rules R160, R162). -/
theorem cfbRun_snd_partial (d : Bytes) (hpart : d.length % 8 ≠ 0) :
    (cfbRun sbox dir k sr d).2 = zeros 8 := by
  induction d using segments_induction generalizing sr with
  | nil => exact absurd rfl hpart
  | segment d hd ih =>
    by_cases h8 : d.length ≤ 8
    · rw [cfbRun_segment _ _ _ _ _ hd h8, cfbStep_snd_partial _ _ _ _ _ (by omega)]
    · rw [cfbRun_cons _ _ _ _ _ hd]
      exact ih _ (by rw [List.length_drop]; omega)

/-- A run over full segments and then the rest is the run over the whole (rule R164 (b)). -/
theorem cfbRun_append (a b : Bytes) (hfull : a.length % 8 = 0) :
    cfbRun sbox dir k sr (a ++ b) =
      ((cfbRun sbox dir k sr a).1 ++ (cfbRun sbox dir k (cfbRun sbox dir k sr a).2 b).1,
       (cfbRun sbox dir k (cfbRun sbox dir k sr a).2 b).2) := by
  induction a using segments_induction generalizing sr with
  | nil => rfl
  | segment a ha ih =>
    have hpos : 0 < a.length := List.length_pos_iff.2 ha
    have h8 : 8 ≤ a.length := by omega
    rw [cfbRun_cons _ _ _ _ (a ++ b) (List.append_ne_nil_of_left_ne_nil ha b),
      List.take_append_of_le_length h8, List.drop_append_of_le_length h8,
      ih _ (by rw [List.length_drop]; omega), cfbRun_cons _ _ _ _ a ha, List.append_assoc]

end

section
variable (sbox : SBox) (k : Subkeys) (sr : Block)

/-- A decryption step fed an encryption step's output gives the segment back, and both leave the same
register: each takes the ciphertext (rules R160, R161). -/
theorem cfbStep_dec_enc (m : Bytes) (hm : m.length ≤ 8) :
    cfbStep sbox .dec k sr (cfbStep sbox .enc k sr m).1 = (m, (cfbStep sbox .enc k sr m).2) := by
  have hlen := cfbStep_length sbox .enc k sr m hm
  refine Prod.ext ?_ ?_
  · rw [cfbStep_fst, cfbStep_fst, xorBytes_self_right _ _ (by simpa using hm)]
  · by_cases h8 : m.length = 8
    · rw [cfbStep_snd_full _ .dec _ _ _ (hlen.trans h8), cfbStep_snd_full _ .enc _ _ _ h8]
    · rw [cfbStep_snd_partial _ .dec _ _ _ (by omega), cfbStep_snd_partial _ .enc _ _ _ h8]

/-- Decryption undoes encryption, segment by segment (rule R164 (a)). -/
theorem cfbRun_dec_enc (m : Bytes) :
    (cfbRun sbox .dec k sr (cfbRun sbox .enc k sr m).1).1 = m := by
  induction m using segments_induction generalizing sr with
  | nil => rfl
  | segment m hm ih =>
    obtain ⟨htake, hdrop⟩ := cfbRun_take_drop sbox .enc k sr m
    have hne : (cfbRun sbox .enc k sr m).1 ≠ [] := by
      rw [← List.length_pos_iff, cfbRun_length]
      exact List.length_pos_iff.2 hm
    rw [cfbRun_cons _ _ _ _ _ hne, htake, hdrop, cfbStep_dec_enc _ _ _ _ (by simp), ih]
    exact List.take_append_drop 8 m

end

end Sys2Proof.Machine

/-! SUPPORT. The three stream commands: the pre-checks of an open stream, and what CFB_DATA leaves. -/

namespace Sys2Proof.Machine

theorem eq_streamState_iff {c : CState} {dir : Dir} :
    c = streamState dir ↔ (c = .cStreamEnc ∧ dir = .enc) ∨ (c = .cStreamDec ∧ dir = .dec) := by
  cases dir <;> simp [streamState]

/-- The state of an open stream tells its direction (rules R23, R167). -/
theorem streamState_inj {dir dir' : Dir} (h : streamState dir = streamState dir') : dir = dir' := by
  simpa using congrArg streamDir h

/-- The legal sizes of CFB_DATA (rule R93). -/
theorem legalLen_cfbData (len : Byte) :
    legalLen (.cfbData len) = true ↔ 1 ≤ len.toNat ∧ len.toNat ≤ 64 := by
  simp [legalLen]

/-- A result as long as the operand `LEN` says records that `LEN` (rules R31, R76). -/
theorem setOut_of_length {out : Bytes} {len : Byte} (h : out.length = len.toNat) (s : State) :
    setOut out s = { s with dout := ofBytes 64 out, olen := len } := by
  rw [setOut, h, BitVec.ofNat_toNat, BitVec.setWidth_eq]

section
variable {s : State} {dir : Dir} {len : Byte}

/-- CFB_DATA of a legal size in an open stream passes its pre-checks (rules R93, R251). -/
theorem precheckError_cfbData (hc : s.cstate = streamState dir) (hpos : 1 ≤ len.toNat)
    (hle : len.toNat ≤ 64) : precheckError (.cfbData len) s = none :=
  precheckError_eq_none (if_pos (stream_of_eq_streamState hc)) rfl
    ((legalLen_cfbData len).2 ⟨hpos, hle⟩)

/-- CFB_DATA in an open stream: the result is the run's output, and the stream goes on from the run's
register, or is closed when the run ends in a partial segment (rule R167). -/
theorem exec_cfbData (hc : s.cstate = streamState dir) (hpos : 1 ≤ len.toNat) (hle : len.toNat ≤ 64) :
    exec (.cfbData len) s = .next (succeed
      (if len.toNat % 8 = 0 then
        { setOut (cfbRun Config.sbox dir s.k s.sr (inBytes len.toNat s)).1 s with
          sr := (cfbRun Config.sbox dir s.k s.sr (inBytes len.toNat s)).2 }
      else closeStream (setOut (cfbRun Config.sbox dir s.k s.sr (inBytes len.toNat s)).1 s))) := by
  obtain ⟨t, h, ht⟩ := exec_of_precheckError_eq_none (precheckError_cfbData hc hpos hle)
  cases ht with
  | cfbDataFull hc' _ hfull =>
    obtain rfl := streamState_inj (hc'.symm.trans hc)
    rw [h, if_pos hfull]
  | cfbDataPartial hc' _ hpart =>
    obtain rfl := streamState_inj (hc'.symm.trans hc)
    rw [h, if_neg hpart]

end

/-- The valid bytes after CFB_DATA of a loaded chunk are the run's output over that chunk
(rules R76, R102, R167). -/
theorem setOut_cfbRun_dout_take (dir : Dir) (k : Subkeys) (sr : Block) (c : Bytes) (s : State)
    (hle : c.length ≤ 64) :
    (setOut (cfbRun Config.sbox dir k sr c).1 s).dout.toList.take c.length =
      (cfbRun Config.sbox dir k sr c).1 := by
  have hlen := cfbRun_length Config.sbox dir k sr c
  have htake := setOut_dout_take (cfbRun Config.sbox dir k sr c).1 s (hlen.trans_le hle)
  rwa [hlen] at htake

/-- A chunk loaded into an open stream and transformed: CFB_DATA succeeds and its result is the run over the
chunk; a chunk of full segments leaves the stream open at the run's register (rules R102, R167). -/
theorem exec_cfbData_withDin {s : State} {dir : Dir} {c : Bytes} (hc : s.cstate = streamState dir)
    (hpos : 1 ≤ c.length) (hle : c.length ≤ 64) :
    ∃ t, exec (.cfbData (lenOf c)) (withDin c s) = .next t ∧ t.err = .noError ∧
      t.dout.toList.take c.length = (cfbRun Config.sbox dir s.k s.sr c).1 ∧
      (c.length % 8 = 0 → t.k = s.k ∧ t.cstate = s.cstate ∧
        t.sr = (cfbRun Config.sbox dir s.k s.sr c).2) := by
  have hlen : (lenOf c).toNat = c.length := lenOf_toNat c (by omega)
  have hrun := exec_cfbData (s := withDin c s) (len := lenOf c) hc (by omega) (by omega)
  have hout := setOut_cfbRun_dout_take dir s.k s.sr c (withDin c s) hle
  rw [inBytes_withDin c s (by omega), hlen] at hrun
  refine ⟨_, hrun, rfl, ?_⟩
  by_cases hfull : c.length % 8 = 0
  · rw [if_pos hfull]
    exact ⟨hout, fun _ => ⟨rfl, rfl, rfl⟩⟩
  · rw [if_neg hfull]
    exact ⟨hout, fun h => absurd h hfull⟩

end Sys2Proof.Machine

/-! The statements of 41_cfb_mode.md, settled. -/

namespace Sys2Proof.Proofs

open Sys2Proof Sys2Proof.Machine

/-- Settles O36: each decryption step takes the ciphertext into its register, as the encryption did. -/
theorem cfbDecryptionInvertsEncryption : Obligations.CfbDecryptionInvertsEncryption :=
  fun sbox key iv m => cfbRun_dec_enc sbox (keyWords key) iv m

/-- Settles O37, by induction along the segments of the first part. -/
theorem cfbRunsInChunks : Obligations.CfbRunsInChunks := cfbRun_append

/-- Settles O38: a run of at most one segment is that segment's step, and a longer one begins with it. -/
theorem cfbRunSegments : Obligations.CfbRunSegments := by
  intro sbox dir k sr m
  have take_eight (dir : Dir) := (cfbRun_take_drop sbox dir k sr m).1
  have single (dir : Dir) (h8 : m.length = 8) : cfbRun sbox dir k sr m = cfbStep sbox dir k sr m :=
    cfbRun_segment sbox dir k sr m (List.ne_nil_of_length_pos (by omega)) h8.le
  refine ⟨cfbRun_length sbox dir k sr m, fun _ => take_eight dir, fun hlt => ?_, fun h8 => ?_, fun h8 => ?_,
    cfbRun_snd_partial sbox dir k sr m, fun key => ⟨rfl, rfl⟩⟩
  · have hlen := cfbRun_length sbox dir k sr m
    calc (cfbRun sbox dir k sr m).1
        = ((cfbRun sbox dir k sr m).1.take 8).take m.length := by
          rw [List.take_of_length_le (by omega : (cfbRun sbox dir k sr m).1.length ≤ 8),
            List.take_of_length_le hlen.le]
      _ = (xorBytes m (encWords sbox k sr).toList).take m.length := by
          rw [take_eight, cfbStep_fst, List.take_of_length_le hlt.le]
      _ = List.zipWith (· ^^^ ·) m ((encWords sbox k sr).toList.take m.length) := by
          rw [xorBytes, List.take_zipWith, List.take_length]
  · rw [single .enc h8, cfbStep_snd_full _ _ _ _ _ h8,
      toList_ofBytes _ ((cfbStep_length _ _ _ _ _ h8.le).trans h8)]
  · rw [single .dec h8, cfbStep_snd_full _ _ _ _ _ h8, toList_ofBytes _ h8]

/-- Settles O42: the first chunk leaves the stream open at its run's register, from which the second run
goes on. -/
theorem cfbCommandsStreamInChunks : Obligations.CfbCommandsStreamInChunks := by
  intro s dir a b hc ha ha64 hfull hb hb64
  obtain ⟨t, ht, hterr, htout, hopen⟩ := exec_cfbData_withDin hc ha ha64
  obtain ⟨hk, hct, hsr⟩ := hopen hfull
  obtain ⟨u, hu, huerr, huout, -⟩ := exec_cfbData_withDin (hct.trans hc) hb hb64
  refine ⟨t, u, ht, hu, hterr, huerr, ?_⟩
  rw [htout, huout, hk, hsr, cfbRun_append _ _ _ _ _ _ hfull]

/-- Settles O39: the context check stands before the size check, and past both the block in `DIN` becomes
the register. -/
theorem cfbStartOpensTheStream : Obligations.CfbStartOpensTheStream := by
  refine ⟨fun len => ⟨decode_encode (.cfbStart .enc len), decode_encode (.cfbStart .dec len)⟩,
    fun dir len s => ⟨fun hc => ?_, fun hc hl => ?_, fun hc hl => ?_⟩⟩
  · exact exec_of_precheckError (precheckError_of_context (if_neg hc))
  · exact exec_of_precheckError (precheckError_of_size (if_pos hc) rfl (beq_false_of_ne hl))
  · obtain ⟨t, h, ht⟩ := exec_of_precheckError_eq_none
      (precheckError_eq_none (if_pos hc) rfl (beq_of_eq hl) : precheckError (.cfbStart dir len) s = none)
    cases ht with
    | cfbStart =>
      rw [h, blockOperand_eq]
      cases dir <;> rfl

/-- Settles O40: CFB_DATA in an open stream, its result and `OLEN` written out. -/
theorem cfbDataTransformsTheStream : Obligations.CfbDataTransformsTheStream := by
  refine ⟨fun len => decode_encode (.cfbData len), ?_⟩
  intro len s dir r streaming
  have hout (h64 : len.toNat ≤ 64) := setOut_of_length (cfbData_out_length dir s h64) s
  have stream (h : streaming) : s.cstate = streamState dir := eq_streamState_iff.2 h
  refine ⟨fun hc => ?_, fun hs hl => ?_, fun hs h1 h64 hfull => ?_, fun hs h1 h64 hpart => ?_⟩
  · exact exec_of_precheckError (precheckError_of_context
      (if_neg (not_stream_of_streamDir_eq_none (streamDir_eq_none.2 hc))))
  · refine exec_of_precheckError (precheckError_of_size
      (if_pos (stream_of_eq_streamState (stream hs))) rfl (Bool.eq_false_iff.2 fun legal => ?_))
    obtain ⟨h1, h64⟩ := (legalLen_cfbData len).1 legal
    omega
  · rw [exec_cfbData (stream hs) h1 h64, if_pos hfull, hout h64]
    rfl
  · rw [exec_cfbData (stream hs) h1 h64, if_neg hpart, hout h64]
    rfl

/-- Settles O41: the context check stands before the size check, and past both the stream is closed. -/
theorem cfbEndClosesTheStream : Obligations.CfbEndClosesTheStream := by
  refine ⟨fun len => decode_encode (.cfbEnd len), ?_⟩
  intro len s streaming
  refine ⟨fun hs => ?_, fun hs hl => ?_, fun hs hl => ?_⟩
  · exact exec_of_precheckError (precheckError_of_context (if_neg hs))
  · exact exec_of_precheckError (precheckError_of_size (if_pos hs) rfl (beq_false_of_ne hl))
  · obtain ⟨t, h, ht⟩ := exec_of_precheckError_eq_none
      (precheckError_eq_none (if_pos hs) rfl (beq_of_eq hl) : precheckError (.cfbEnd len) s = none)
    cases ht with
    | cfbEnd => exact h

end Sys2Proof.Proofs

/-! SUPPORT. The key-transport codec: wrapping and tagging block by block, which blobs decode and what a change
of one byte does to them, and the diversification as two sums and a CFB encryption. -/

namespace Sys2Proof.Machine

/-! ### Sub-sequences (rule R9) -/

/-- A sub-sequence that leaves out the one byte in which two sequences differ is the same in both. -/
theorem slice_eq_of_agree {m : Nat} {v v' : Vector Byte m} {j : Nat}
    (agree : ∀ (i : Nat) (hi : i < m), i ≠ j → v[i] = v'[i]) (off n : Nat) (h : off + n ≤ m)
    (hj : j < off ∨ off + n ≤ j) : slice v off n h = slice v' off n h := by
  ext i hi : 1
  rw [slice_getElem, slice_getElem]
  exact agree _ _ (by omega)

/-! ### Wrapping and unwrapping (rules R131, R186) -/

section
variable (sbox : SBox) (tk : Key)

theorem dec_enc (b : Block) : dec sbox tk (enc sbox tk b) = b :=
  decWords_encWords sbox (keyWords tk) b

theorem enc_dec (b : Block) : enc sbox tk (dec sbox tk b) = b :=
  encWords_decWords sbox (keyWords tk) b

theorem enc_inj {a b : Block} : enc sbox tk a = enc sbox tk b ↔ a = b :=
  (Function.LeftInverse.injective (dec_enc sbox tk)).eq_iff

theorem wrapBlocks_toList (s : Key) :
    (wrapBlocks sbox tk s).toList = (enc sbox tk (slice s 0 8)).toList ++
      (enc sbox tk (slice s 8 8)).toList ++ (enc sbox tk (slice s 16 8)).toList ++
      (enc sbox tk (slice s 24 8)).toList := by
  rw [wrapBlocks, joinBlocks_toList]

theorem unwrapBlocks_toList (c : Key) :
    (unwrapBlocks sbox tk c).toList = (dec sbox tk (slice c 0 8)).toList ++
      (dec sbox tk (slice c 8 8)).toList ++ (dec sbox tk (slice c 16 8)).toList ++
      (dec sbox tk (slice c 24 8)).toList := by
  rw [unwrapBlocks, joinBlocks_toList]

end

/-- Block `i` of the four blocks of a key (rule R186). -/
def keyBlock (s : Key) (i : Fin 4) : Block := slice s (8 * i.val) 8 (by omega)

theorem key_ext_blocks {s s' : Key} (h : ∀ i, keyBlock s i = keyBlock s' i) : s = s' := by
  rw [← joinBlocks_slices s, ← joinBlocks_slices s']
  exact congr (congr (congrArg₂ joinBlocks (h 0) (h 1)) (h 2)) (h 3)

/-- A function of blocks applied to each block of a key. -/
theorem keyBlock_joinBlocks (f : Block → Block) (s : Key) (i : Fin 4) :
    keyBlock (joinBlocks (f (slice s 0 8)) (f (slice s 8 8)) (f (slice s 16 8)) (f (slice s 24 8))) i =
      f (keyBlock s i) := by
  obtain ⟨h0, h1, h2, h3⟩ := slice_joinBlocks (f (slice s 0 8)) (f (slice s 8 8)) (f (slice s 16 8))
    (f (slice s 24 8))
  fin_cases i
  · exact h0
  · exact h1
  · exact h2
  · exact h3

section
variable (sbox : SBox) (tk : Key)

theorem keyBlock_wrapBlocks (s : Key) (i : Fin 4) :
    keyBlock (wrapBlocks sbox tk s) i = enc sbox tk (keyBlock s i) :=
  keyBlock_joinBlocks (enc sbox tk) s i

theorem keyBlock_unwrapBlocks (c : Key) (i : Fin 4) :
    keyBlock (unwrapBlocks sbox tk c) i = dec sbox tk (keyBlock c i) :=
  keyBlock_joinBlocks (dec sbox tk) c i

/-- Unwrapping undoes wrapping, block by block. -/
theorem unwrapBlocks_wrapBlocks (s : Key) : unwrapBlocks sbox tk (wrapBlocks sbox tk s) = s :=
  key_ext_blocks fun i => by rw [keyBlock_unwrapBlocks, keyBlock_wrapBlocks, dec_enc]

/-- Wrapping undoes unwrapping, block by block. -/
theorem wrapBlocks_unwrapBlocks (c : Key) : wrapBlocks sbox tk (unwrapBlocks sbox tk c) = c :=
  key_ext_blocks fun i => by rw [keyBlock_wrapBlocks, keyBlock_unwrapBlocks, enc_dec]

theorem unwrapBlocks_inj {c c' : Key} (h : unwrapBlocks sbox tk c = unwrapBlocks sbox tk c') : c = c' :=
  Function.LeftInverse.injective (wrapBlocks_unwrapBlocks sbox tk) h

end

/-! ### The tag (rules R187, R194) -/

theorem kwTag_eq_foldl (sbox : SBox) (tk : Key) (ukm : Block) (s : Key) :
    kwTag sbox tk ukm s =
      [keyBlock s 0, keyBlock s 1, keyBlock s 2, keyBlock s 3].foldl
        (fun x p => enc sbox tk (xorV x p)) ukm := rfl

theorem xorV_right_cancel_iff {n : Nat} {a b c : Vector Byte n} : xorV a c = xorV b c ↔ a = b :=
  ⟨xorV_right_inj, fun h => h ▸ rfl⟩

theorem xorV_left_cancel_iff {n : Nat} {a b c : Vector Byte n} : xorV c a = xorV c b ↔ a = b :=
  ⟨xorV_left_inj, fun h => h ▸ rfl⟩

/-- Every link of the chain is a bijection of what comes into it, so different `UKM`s have different tags. -/
theorem kwTag_left_inj {sbox : SBox} {tk : Key} {ukm ukm' : Block} {s : Key}
    (h : kwTag sbox tk ukm s = kwTag sbox tk ukm' s) : ukm = ukm' := by
  simpa only [kwTag, enc_inj, xorV_right_cancel_iff] using h

/-- Keys that differ in at most one block and have one tag are equal: the chain is the same up to that
block, and every link from there on is a bijection. -/
theorem kwTag_right_inj {sbox : SBox} {tk : Key} {ukm : Block} {s s' : Key} (k : Fin 4)
    (agree : ∀ i, i ≠ k → keyBlock s i = keyBlock s' i)
    (h : kwTag sbox tk ukm s = kwTag sbox tk ukm s') : s = s' := by
  refine key_ext_blocks fun i => ?_
  by_cases hik : i = k
  · subst hik
    simp only [kwTag_eq_foldl, List.foldl_cons, List.foldl_nil] at h
    fin_cases i <;>
      simpa [agree, enc_inj, xorV_right_cancel_iff, xorV_left_cancel_iff] using h
  · exact agree i hik

/-! ### The decoder (rules R189, R193, R194) -/

section
variable {sbox : SBox} {m : Method} {kek : Key}

/-- A blob decodes to a key exactly when the key is its unwrapped cipher field and the method code and the
tag are as expected (rule R189). -/
theorem kwDecodeBlob_eq_some_iff {b : Blob} {key : Key} :
    kwDecodeBlob sbox m kek b = some key ↔
      blobMethod b = methodCode m ∧
        key = unwrapBlocks sbox (transportKey sbox m kek (blobUkm b)) (blobCipher b) ∧
        kwTag sbox (transportKey sbox m kek (blobUkm b)) (blobUkm b) key = blobTag b := by
  rw [kwDecodeBlob, Option.ite_none_right_eq_some]
  constructor
  · rintro ⟨⟨hm, ht⟩, hkey⟩
    obtain rfl := Option.some.inj hkey
    exact ⟨hm, rfl, ht⟩
  · rintro ⟨hm, rfl, ht⟩
    exact ⟨⟨hm, ht⟩, rfl⟩

/-- Rule R193. -/
theorem kwDecodeBlob_kwEncodeBlob (sbox : SBox) (m : Method) (kek : Key) (ukm : Block) (s : Key) :
    kwDecodeBlob sbox m kek (kwEncodeBlob sbox m kek ukm s) = some s := by
  simp [kwDecodeBlob_eq_some_iff, kwEncodeBlob, unwrapBlocks_wrapBlocks]

/-- A blob is its four fields joined (rule R183). -/
theorem joinBlob_fields (b : Blob) :
    joinBlob (blobMethod b) (blobUkm b) (blobCipher b) (blobTag b) = b := by
  ext i hi : 1
  rw [joinBlob_getElem]
  simp only [blobMethod, blobUkm, blobCipher, blobTag, slice_getElem]
  split_ifs <;> congr 1 <;> omega

/-- Two blobs that decode under one key-exchange key and method, and differ in at most one byte, are equal;
under method 2 that byte is none of the `UKM`, which the transport key depends on (rule R194). -/
theorem blob_eq_of_decodes {b b' : Blob} {s s' : Key} {j : Nat}
    (agree : ∀ (i : Nat) (hi : i < 49), i ≠ j → b[i] = b'[i])
    (hj : j < 1 ∨ 9 ≤ j ∨ m = .plain)
    (h : kwDecodeBlob sbox m kek b = some s) (h' : kwDecodeBlob sbox m kek b' = some s') : b = b' := by
  obtain ⟨hmethod, rfl, htag⟩ := kwDecodeBlob_eq_some_iff.1 h
  obtain ⟨hmethod', rfl, htag'⟩ := kwDecodeBlob_eq_some_iff.1 h'
  have same_cipher : j < 9 ∨ 41 ≤ j → blobCipher b = blobCipher b' :=
    slice_eq_of_agree agree 9 32 (by decide)
  have same_tag : j < 41 → blobTag b = blobTag b' := fun hlt =>
    slice_eq_of_agree agree 41 8 (by decide) (.inl hlt)
  have hukm : blobUkm b = blobUkm b' := by
    by_cases out : j < 1 ∨ 9 ≤ j
    · exact slice_eq_of_agree agree 1 8 (by decide) out
    · obtain rfl : m = .plain := by tauto
      rw [← same_cipher (by omega), ← same_tag (by omega)] at htag'
      exact kwTag_left_inj (htag.trans htag'.symm)
  rw [← hukm] at htag'
  have hcipher : blobCipher b = blobCipher b' := by
    by_cases out : j < 9 ∨ 41 ≤ j
    · exact same_cipher out
    · rw [← same_tag (by omega)] at htag'
      refine unwrapBlocks_inj _ _ (kwTag_right_inj ⟨(j - 9) / 8, by omega⟩ (fun i hi => ?_)
        (htag.trans htag'.symm))
      have out_of_block : i.val ≠ (j - 9) / 8 := fun e => hi (Fin.ext e)
      rw [keyBlock_unwrapBlocks, keyBlock_unwrapBlocks]
      congr 1
      ext c hc : 1
      simp only [keyBlock, blobCipher, slice_getElem]
      exact agree _ _ (by omega)
  rw [← hcipher] at htag'
  rw [← joinBlob_fields b, ← joinBlob_fields b', hmethod, hmethod', hukm, hcipher, ← htag, ← htag']

/-- A blob that decodes, changed in one byte, does not, unless that byte is of the `UKM` under method 2
(rule R194). -/
theorem kwDecodeBlob_set_xor {b : Blob} {s : Key} (h : kwDecodeBlob sbox m kek b = some s) {j : Fin 49}
    {x : Byte} (hx : x ≠ 0#8) (hj : j.val < 1 ∨ 9 ≤ j.val ∨ m = .plain) :
    kwDecodeBlob sbox m kek (b.set j (b[j] ^^^ x)) = none := by
  refine Option.eq_none_iff_forall_ne_some.2 fun s' h' => hx ?_
  have same : b = b.set j (b[j] ^^^ x) :=
    blob_eq_of_decodes (fun i hi hne => (Vector.getElem_set_ne _ _ hne.symm).symm) hj h h'
  have byte : b[j.val] = b[j.val] ^^^ x := by
    conv_lhs => rw [same]
    exact Vector.getElem_set_self _
  exact (BitVec.xor_right_inj b[j.val]).1 (byte.symm.trans BitVec.xor_zero.symm)

end

/-! ### The diversification (rule R185) -/

/-- A loop that adds each item to one of two sums gives the sum of the items it chose and the sum of the
others. -/
theorem foldl_two_sums {α : Type} (p : α → Bool) (w : α → Word) (l : List α) (a b : Word) :
    l.foldl (fun s j => if p j then (s.1 + w j, s.2) else (s.1, s.2 + w j)) (a, b) =
      (a + (l.map fun j => if p j then w j else 0).sum,
        b + (l.map fun j => if p j then 0 else w j).sum) := by
  induction l generalizing a b with
  | nil => simp
  | cons j l ih =>
    by_cases hp : p j = true <;> simp [hp, ih, add_assoc]

theorem divSums_eq (k : Key) (u : Byte) :
    divSums k u =
      (((List.finRange 8).map fun j => if u.getLsbD j.val then (keyWords k)[j] else (0 : Word)).sum,
        ((List.finRange 8).map fun j => if u.getLsbD j.val then (0 : Word) else (keyWords k)[j]).sum) := by
  have sums := foldl_two_sums (fun j : Fin 8 => u.getLsbD j.val) (fun j => (keyWords k)[j])
    (List.finRange 8) 0 0
  rwa [zero_add, zero_add] at sums

/-- The new key is the CFB encryption itself: it has 32 bytes, so none is cut off or added. -/
theorem divStep_toList (sbox : SBox) (k : Key) (u : Byte) :
    (divStep sbox k u).toList = cfbEnc sbox k (ofHalves (divSums k u)) k.toList :=
  toList_ofBytes _ ((cfbRun_length _ _ _ _ _).trans k.length_toList)

theorem ofHalves_eq_ofBytes (x : Halves) :
    ofHalves x = ofBytes 8 ((bytes32le x.1).toList ++ (bytes32le x.2).toList) := by
  rw [← Vector.toList_append]
  exact (ofBytes_toList (ofHalves x)).symm

theorem div_eq_foldl_finRange (sbox : SBox) (kek : Key) (ukm : Block) :
    div sbox kek ukm = (List.finRange 8).foldl (fun k i => divStep sbox k ukm[i]) kek := by
  have bytes : ukm.toList = (List.finRange 8).map fun i => ukm[i] := by
    apply List.ext_getElem
    · simp
    · intro i _ _
      simp only [Vector.getElem_toList, List.getElem_map, List.getElem_finRange]
      rfl
  rw [div, bytes, List.foldl_map]

end Sys2Proof.Machine

/-! SUPPORT. The two key-transport commands: each as an equation past its pre-checks, what a host loads for
KW_DECODE, and that neither uses a context. -/

namespace Sys2Proof.Machine

/-- The valid bytes of a result of fixed length are that result (rules R30, R76). -/
theorem setOut_toList_dout_take {n : Nat} (v : Vector Byte n) (s : State) (h : n ≤ 64) :
    (setOut v.toList s).dout.toList.take n = v.toList := by
  simpa only [Vector.length_toList] using setOut_dout_take v.toList s (by simpa using h)

/-! ### The commands past their pre-checks (rules R190, R191, R254) -/

/-- Different methods have different codes (rule R99). -/
theorem eq_of_methodOf_methodCode {m m' : Method} (h : methodOf (methodCode m) = some m') : m = m' :=
  Option.some.inj ((methodOf_methodCode m).symm.trans h)

theorem methodError_methodCode (m : Method) (len : Byte) :
    methodError (.kwEncode (methodCode m) len) = none ∧
      methodError (.kwDecode (methodCode m) len) = none := by
  obtain ⟨henc, hdec⟩ := methodError_kw (methodCode m) len
  simp [henc, hdec]

theorem exec_kwEncode (m : Method) (s : State) :
    exec (.kwEncode (methodCode m) 72#8) s =
      .next (succeed (wipeDin (setOut (kwEncodeBlob Config.sbox m (kekOperand s) (ukmOperand s)
        (sessionKeyOperand s)).toList s))) := by
  obtain ⟨t, h, ht⟩ := exec_of_precheckError_eq_none
    (precheckError_eq_none (s := s) rfl (methodError_methodCode m 72#8).1 rfl)
  cases ht with
  | kwEncode hm =>
    obtain rfl := eq_of_methodOf_methodCode hm
    exact h

/-- The valid bytes after KW_ENCODE are the blob (rules R30, R190). -/
theorem exec_kwEncode_result (m : Method) (s : State) :
    ∃ t, exec (.kwEncode (methodCode m) 72#8) s = .next t ∧
      t.dout.toList.take 49 = (kwEncodeBlob Config.sbox m (kekOperand s) (ukmOperand s)
        (sessionKeyOperand s)).toList := by
  refine ⟨_, exec_kwEncode m s, ?_⟩
  rw [succeed_dout, wipeDin_dout, setOut_toList_dout_take _ _ (by decide)]

section
variable {m : Method} {s : State}

theorem exec_kwDecode_of_some {key : Key}
    (hkey : kwDecodeBlob Config.sbox m (kekOperand s) (blobOperand s) = some key) :
    exec (.kwDecode (methodCode m) 81#8) s = .next (succeed (setOut key.toList (wipeDin s))) := by
  obtain ⟨t, h, ht⟩ := exec_of_precheckError_eq_none
    (precheckError_eq_none (s := s) rfl (methodError_methodCode m 81#8).2 rfl)
  cases ht with
  | kwDecode hm hkey' =>
    obtain rfl := eq_of_methodOf_methodCode hm
    obtain rfl := Option.some.inj (hkey.symm.trans hkey')
    exact h
  | kwDecodeFails hm hfail =>
    obtain rfl := eq_of_methodOf_methodCode hm
    cases hkey.symm.trans hfail

theorem exec_kwDecode_of_none
    (hfail : kwDecodeBlob Config.sbox m (kekOperand s) (blobOperand s) = none) :
    exec (.kwDecode (methodCode m) 81#8) s = .next (raiseIntegrity s) := by
  obtain ⟨t, h, ht⟩ := exec_of_precheckError_eq_none
    (precheckError_eq_none (s := s) rfl (methodError_methodCode m 81#8).2 rfl)
  cases ht with
  | kwDecode hm hkey =>
    obtain rfl := eq_of_methodOf_methodCode hm
    cases hkey.symm.trans hfail
  | kwDecodeFails => exact h

end

/-- IntegrityError is no pre-check error, so a command that ends in it has failed its verification
(rules R251, R254). -/
theorem eq_raiseIntegrity_of_exec {i : Instr} {s t : State} (h : exec i s = .next t)
    (herr : t.err = .error .integrityError) : t = raiseIntegrity s := by
  cases exec_next h with
  | raised he =>
    obtain rfl := ErrCode.error.inj herr
    exact absurd he (precheckError_ne_integrityError i s)
  | completed _ ht => exact ht.err_cases.resolve_left (by simp [herr])

/-- The wipe leaves nothing of what stood in `DIN` (rule R254). -/
theorem raiseIntegrity_din_irrel (s : State) (din : Vector Byte 128) :
    raiseIntegrity { s with din := din } = raiseIntegrity s := rfl

/-! ### What a host loads for KW_DECODE (rules R102, R182) -/

theorem kekOperand_withDin (kek : Key) (rest : Bytes) (s : State) :
    kekOperand (withDin (kek.toList ++ rest) s) = kek := by
  rw [kekOperand, dinField_withDin, List.drop_zero]
  ext i hi : 1
  rw [ofBytes_getElem, List.getD_append _ _ _ _ (by simpa using hi)]
  simp [hi]

theorem blobOperand_withDin (kek : Key) (b : Blob) (s : State) :
    blobOperand (withDin (kek.toList ++ b.toList) s) = b := by
  rw [blobOperand, dinField_withDin, List.drop_left' kek.length_toList, ofBytes_toList]

/-- A blob loaded behind a key-exchange key under which it decodes: KW_DECODE succeeds with the decoded key
as its result (rule R191). -/
theorem exec_kwDecode_withDin {m : Method} {kek key : Key} {b : Blob}
    (h : kwDecodeBlob Config.sbox m kek b = some key) (s : State) :
    ∃ u, exec (.kwDecode (methodCode m) 81#8) (withDin (kek.toList ++ b.toList) s) = .next u ∧
      u.err = .noError ∧ u.olen = 32#8 ∧ u.dout.toList.take 32 = key.toList := by
  have hdec := exec_kwDecode_of_some (s := withDin (kek.toList ++ b.toList) s)
    (by rwa [kekOperand_withDin, blobOperand_withDin])
  refine ⟨_, hdec, succeed_err _, ?_, ?_⟩
  · rw [succeed_olen, setOut_olen, Vector.length_toList]
  · rw [succeed_dout, setOut_toList_dout_take _ _ (by decide)]

theorem kekOperand_toList (s : State) : (kekOperand s).toList = s.din.toList.take 32 := rfl

theorem sessionKeyOperand_toList (s : State) :
    (sessionKeyOperand s).toList = (s.din.toList.drop 32).take 32 := rfl

/-! ### The contexts (rule R182) -/

/-- State `s` with the cipher and the HMAC context of `c`. -/
def withContexts (c s : State) : State :=
  { s with
    k := c.k, sr := c.sr, cstate := c.cstate, ikey := c.ikey, okey := c.okey, hacc := c.hacc
    hstate := c.hstate }

/-- The key-transport commands, with every method and size. -/
def IsKeyTransport (i : Instr) : Prop :=
  ∃ method len, i = .kwEncode method len ∨ i = .kwDecode method len

theorem precheckError_withContexts {i : Instr} (hi : IsKeyTransport i) (c s : State) :
    precheckError i (withContexts c s) = precheckError i s := by
  obtain ⟨method, len, rfl | rfl⟩ := hi <;> rfl

theorem Completes.sameContexts {i : Instr} {s t : State} (hi : IsKeyTransport i) (h : Completes i s t) :
    SameCipherContext s t ∧ SameHmacContext s t := by
  obtain ⟨method, len, rfl | rfl⟩ := hi
  · cases h with
    | kwEncode => constructor <;> constructor <;> simp
  · cases h with
    | kwDecode | kwDecodeFails => constructor <;> constructor <;> simp

/-- The operands lie in `DIN`, and so the command does the same to all but the contexts. -/
theorem Completes.exec_withContexts {i : Instr} {s t : State} (hi : IsKeyTransport i)
    (h : Completes i s t) (c : State) :
    exec i (withContexts c s) = .next (withContexts c t) := by
  obtain ⟨method, len, rfl | rfl⟩ := hi
  · cases h with
    | kwEncode hm =>
      rw [methodOf_eq_some hm]
      exact exec_kwEncode _ (withContexts c s)
  · cases h with
    | kwDecode hm hkey =>
      rw [methodOf_eq_some hm]
      exact exec_kwDecode_of_some (s := withContexts c s) hkey
    | kwDecodeFails hm hfail =>
      rw [methodOf_eq_some hm]
      exact exec_kwDecode_of_none (s := withContexts c s) hfail

end Sys2Proof.Machine

/-! The statements of 42_key_transport.md, settled. -/

namespace Sys2Proof.Proofs

open Sys2Proof Sys2Proof.Machine

/-- Settles O43: the layout is that of a joined blob, the loop of the two sums adds each word to one of them,
and the other functions are as their rules write them. -/
theorem encodedBlobHasTheLayout : Obligations.EncodedBlobHasTheLayout := by
  intro sbox m kek s ukm
  have layout := joinBlob_toList (methodCode m) ukm
    (wrapBlocks sbox (transportKey sbox m kek ukm) s) (kwTag sbox (transportKey sbox m kek ukm) ukm s)
  refine ⟨layout, blobMethod_joinBlob _ _ _ _, blobUkm_joinBlob _ _ _ _,
    blobCipher_joinBlob _ _ _ _, blobTag_joinBlob _ _ _ _, ⟨rfl, rfl⟩, ⟨rfl, rfl⟩,
    div_eq_foldl_finRange sbox kek ukm, fun k u => ?_,
    fun t => ⟨wrapBlocks_toList sbox t s, unwrapBlocks_toList sbox t s, kwTag_eq_foldl sbox t ukm s⟩⟩
  rw [divStep_toList, ofHalves_eq_ofBytes, divSums_eq]

/-- Settles O44: the fields are read back, and unwrapping undoes wrapping. -/
theorem kwDecodeInvertsKwEncode : Obligations.KwDecodeInvertsKwEncode :=
  fun sbox m kek s ukm => kwDecodeBlob_kwEncodeBlob sbox m kek ukm s

/-- Settles O45: the blob decodes and differs from the tampered one in one byte, so if that decoded too, the
two would be equal. -/
theorem tamperedBlobFailsToDecode : Obligations.TamperedBlobFailsToDecode := by
  intro sbox m kek s ukm j x hx hj
  have outside : j.val < 1 ∨ 9 ≤ j.val ∨ m = .plain := by
    obtain h0 | h9 | ⟨-, -, hm⟩ := hj
    · exact .inl (by omega)
    · exact .inr (.inl h9)
    · exact .inr (.inr hm)
  exact kwDecodeBlob_set_xor (kwDecodeBlob_kwEncodeBlob sbox m kek ukm s) hx outside

/-- Settles O48: the blob that was encoded stands behind its key-exchange key, and decodes to the key that
was encoded. -/
theorem kwDecodeRecoversTheEncodedKey : Obligations.KwDecodeRecoversTheEncodedKey := by
  intro m s
  obtain ⟨t, ht, hblob⟩ := exec_kwEncode_result m s
  obtain ⟨u, hu, herr, holen, hkey⟩ := exec_kwDecode_withDin (kwDecodeBlob_kwEncodeBlob Config.sbox m
    (kekOperand s) (ukmOperand s) (sessionKeyOperand s)) t
  rw [kekOperand_toList, ← hblob] at hu
  exact ⟨t, u, ht, hu, herr, holen, hkey.trans (sessionKeyOperand_toList s)⟩

/-- Settles O49: each failure ends as its start with both buffers wiped and the error recorded, and that
reads nothing of `DIN`. -/
theorem integrityFailuresLookAlike : Obligations.IntegrityFailuresLookAlike := by
  intro s t t' din din' method method' len len' h h' herr herr'
  rw [eq_raiseIntegrity_of_exec h herr, eq_raiseIntegrity_of_exec h' herr', raiseIntegrity_din_irrel s din,
    raiseIntegrity_din_irrel s din']

/-- Settles O50: a pre-check of these commands looks at no context, and past the pre-checks the operands are
all in `DIN`. -/
theorem keyTransportIgnoresTheContexts : Obligations.KeyTransportIgnoresTheContexts := by
  intro i s s' t hi h
  cases exec_next h with
  | raised he =>
    exact ⟨⟨rfl, rfl, rfl⟩, ⟨rfl, rfl, rfl, rfl⟩,
      exec_of_precheckError ((precheckError_withContexts hi s' s).trans he)⟩
  | completed _ ht =>
    obtain ⟨hcipher, hhmac⟩ := ht.sameContexts hi
    exact ⟨hcipher, hhmac, ht.exec_withContexts hi s'⟩

/-- Settles O46: the method check stands before the size check, and past both the blob is the result. -/
theorem kwEncodeEncodesTheSessionKey : Obligations.KwEncodeEncodesTheSessionKey := by
  refine ⟨fun method len => decode_encode (.kwEncode method len),
    fun method len s => ⟨fun h1 h2 => ?_, fun hm hl => ?_, fun m hm hl => ?_⟩⟩
  · exact exec_of_precheckError (precheckError_of_method rfl (if_neg (not_or.2 ⟨h1, h2⟩)))
  · exact exec_of_precheckError (precheckError_of_size rfl (if_pos hm) (beq_false_of_ne hl))
  · obtain rfl : len = 72#8 := BitVec.eq_of_toNat_eq hl
    subst hm
    rw [exec_kwEncode, setOut, Vector.length_toList]
    rfl

/-- Settles O47: the method check stands before the size check, and past both the verification alone decides
between the two ends of the command. -/
theorem kwDecodeDecodesTheBlob : Obligations.KwDecodeDecodesTheBlob := by
  refine ⟨fun method len => decode_encode (.kwDecode method len),
    fun sbox m kek b key => kwDecodeBlob_eq_some_iff,
    fun method len s => ⟨fun h1 h2 => ?_, fun hm hl => ?_, fun m hm hl => ?_⟩⟩
  · exact exec_of_precheckError (precheckError_of_method rfl (if_neg (not_or.2 ⟨h1, h2⟩)))
  · exact exec_of_precheckError (precheckError_of_size rfl (if_pos hm) (beq_false_of_ne hl))
  · obtain rfl : len = 81#8 := BitVec.eq_of_toNat_eq hl
    subst hm
    rw [← kekOperand_eq, ← blobOperand_eq]
    cases hd : kwDecodeBlob Config.sbox m (kekOperand s) (blobOperand s) with
    | some key =>
      rw [exec_kwDecode_of_some hd, setOut, Vector.length_toList]
      rfl
    | none =>
      rw [exec_kwDecode_of_none hd, raiseIntegrity, setOut, ofBytes_nil]
      rfl

end Sys2Proof.Proofs

/-! SUPPORT. The HMAC engine: its key and its pads, each command as an equation past its pre-checks, and a
chunk loaded and absorbed. -/

namespace Sys2Proof.Machine

/-! ### The key and the pads (rules R211, R212) -/

/-- A sequence that fits is followed by zero bytes (rule R9). -/
theorem toList_ofBytes_of_le {n : Nat} (s : Bytes) (h : s.length ≤ n) :
    (ofBytes n s).toList = s ++ List.replicate (n - s.length) 0#8 := by
  rw [ofBytes, Vector.toList_mk, List.take_append, List.take_of_length_le h, List.take_replicate,
    Nat.min_eq_left (Nat.sub_le n s.length)]

theorem hmacK0_of_long {hash : HashFn} {key : Bytes} (h : 32 < key.length) :
    hmacK0 hash key = hash key :=
  if_pos h

theorem hmacK0_of_fits {hash : HashFn} {key : Bytes} (h : key.length ≤ 32) :
    hmacK0 hash key = ofBytes 32 key :=
  if_neg h.not_gt

theorem xorV_replicate {n : Nat} (v : Vector Byte n) (b : Byte) :
    xorV v (Vector.replicate n b) = v.map (· ^^^ b) := by
  ext i hi : 1
  simp

theorem hmacInnerKey_eq_map (k0 : Key) : hmacInnerKey k0 = k0.map (· ^^^ 0x36#8) :=
  xorV_replicate k0 0x36#8

theorem hmacOuterKey_eq_map (k0 : Key) : hmacOuterKey k0 = k0.map (· ^^^ 0x5C#8) :=
  xorV_replicate k0 0x5C#8

/-! ### The commands past their pre-checks (rules R214 to R216) -/

/-- The slot of the HMAC context holds a context that takes chunks (rule R27). -/
def HmacLive (s : State) : Prop := s.hstate = .hInitialized ∨ s.hstate = .hAccumulating

section
variable {s : State} {len : Byte}

theorem contextError_hmacInit_free (hfree : ¬ HmacLive s) :
    contextError (.hmacInit len) s.cstate s.hstate = none :=
  if_pos (hstate_free_iff.2 hfree)

theorem contextError_hmacUpdate_live (hlive : HmacLive s) :
    contextError (.hmacUpdate len) s.cstate s.hstate = none :=
  (contextError_hmacUpdate len _ _).trans (hmacLiveError_eq_none.2 hlive)

theorem contextError_hmacFinal_live (hlive : HmacLive s) :
    contextError (.hmacFinal len) s.cstate s.hstate = none :=
  (contextError_hmacFinal len _ _).trans (hmacLiveError_eq_none.2 hlive)

/-- HMAC_INIT with the slot free: the pads of the key in `DIN`, the inner one absorbed, and the key wiped
(rule R214). -/
theorem exec_hmacInit (hfree : ¬ HmacLive s) (hlen : len.toNat ≤ 128) :
    exec (.hmacInit len) s = .next (succeed (wipeDin
      { s with
        ikey := hmacInnerKey (hmacK0 Config.hash (inBytes len.toNat s))
        okey := hmacOuterKey (hmacK0 Config.hash (inBytes len.toNat s))
        hacc := (hmacInnerKey (hmacK0 Config.hash (inBytes len.toNat s))).toList
        hstate := .hInitialized })) := by
  obtain ⟨t, h, ht⟩ := exec_of_precheckError_eq_none
    (precheckError_eq_none (contextError_hmacInit_free hfree) rfl (decide_eq_true hlen))
  cases ht with
  | hmacInit => exact h

/-- HMAC_UPDATE in a live context (rule R215). -/
theorem exec_hmacUpdate (hlive : HmacLive s) (hlen : len.toNat ≤ 128) :
    exec (.hmacUpdate len) s = .next (succeed
      { s with hacc := s.hacc ++ inBytes len.toNat s, hstate := .hAccumulating }) := by
  obtain ⟨t, h, ht⟩ := exec_of_precheckError_eq_none
    (precheckError_eq_none (contextError_hmacUpdate_live hlive) rfl (decide_eq_true hlen))
  cases ht with
  | hmacUpdate => exact h

/-- HMAC_FINAL in a live context (rule R216). -/
theorem exec_hmacFinal (hlive : HmacLive s) :
    exec (.hmacFinal 0#8) s = .next (succeed (dropHmacContext .hFinalized
      (setOut (hmacDigest Config.hash s.okey s.hacc).toList s))) := by
  obtain ⟨t, h, ht⟩ := exec_of_precheckError_eq_none
    (precheckError_eq_none (contextError_hmacFinal_live (len := 0#8) hlive) rfl rfl)
  cases ht with
  | hmacFinal => exact h

end

/-! ### The key loaded, and chunks loaded and absorbed (rules R102, R214, R215) -/

/-- A key loaded and HMAC_INIT: a live context made of that key's pads. -/
theorem exec_hmacInit_withDin {s : State} {key : Bytes} (hfree : ¬ HmacLive s)
    (hkey : key.length ≤ 128) :
    ∃ t, exec (.hmacInit (lenOf key)) (withDin key s) = .next t ∧ HmacLive t ∧
      t.okey = hmacOuterKey (hmacK0 Config.hash key) ∧
      t.hacc = (hmacInnerKey (hmacK0 Config.hash key)).toList := by
  have hinit := exec_hmacInit (s := withDin key s) (len := lenOf key) hfree
    ((lenOf_toNat key hkey).trans_le hkey)
  rw [inBytes_withDin key s hkey] at hinit
  exact ⟨_, hinit, .inl rfl, rfl, rfl⟩

/-- The state after a chunk has been loaded into zeroed `DIN` and absorbed. -/
def absorbChunk (c : Bytes) (s : State) : State :=
  { s with hacc := s.hacc ++ c, hstate := .hAccumulating, din := ofBytes 128 c, err := .noError }

theorem exec_hmacUpdate_withDin {s : State} {c : Bytes} (hlive : HmacLive s) (hc : c.length ≤ 128) :
    exec (.hmacUpdate (lenOf c)) (withDin c s) = .next (absorbChunk c s) := by
  have hupdate := exec_hmacUpdate (s := withDin c s) (len := lenOf c) hlive
    ((lenOf_toNat c hc).trans_le hc)
  rwa [inBytes_withDin c s hc] at hupdate

theorem feedHmac_cons {s : State} {c : Bytes} (rest : List Bytes) (hlive : HmacLive s)
    (hc : c.length ≤ 128) : feedHmac (c :: rest) s = feedHmac rest (absorbChunk c s) := by
  rw [feedHmac, exec_hmacUpdate_withDin hlive hc]

end Sys2Proof.Machine

/-! The statements of 43_hmac.md, settled. -/

namespace Sys2Proof.Proofs

open Sys2Proof Sys2Proof.Machine

/-- Settles O56, by induction on the chunks after the first: each finds the context that has absorbed the
chunk before it, and loads over that chunk in `DIN`. -/
theorem hmacUpdatesAbsorbTheConcatenation : Obligations.HmacUpdatesAbsorbTheConcatenation := by
  intro s c rest hlive hle
  induction rest generalizing s c with
  | nil =>
    rw [feedHmac_cons [] hlive (hle c List.mem_cons_self), List.flatten_singleton]
    rfl
  | cons d rest ih =>
    obtain ⟨hc, hrest⟩ := List.forall_mem_cons.1 hle
    rw [feedHmac_cons (d :: rest) hlive hc, ih (absorbChunk c s) d (.inr rfl) hrest,
      List.flatten_cons (l := c), ← List.append_assoc]
    rfl

/-- What feeding chunks, or none, leaves of the context that its digest is made of (rules R215, R216). -/
theorem feedHmac_context {s : State} {chunks : List Bytes} (hlive : HmacLive s)
    (hle : ∀ d ∈ chunks, d.length ≤ 128) :
    ∃ u, feedHmac chunks s = .next u ∧ HmacLive u ∧ u.okey = s.okey ∧
      u.hacc = s.hacc ++ chunks.flatten := by
  cases chunks with
  | nil => exact ⟨s, rfl, hlive, rfl, (List.append_nil s.hacc).symm⟩
  | cons c rest =>
    exact ⟨_, hmacUpdatesAbsorbTheConcatenation s c rest hlive hle, .inr rfl, rfl, rfl⟩

/-- Settles O57: HMAC_INIT leaves the inner pad in the accumulator, the chunks follow it there, and
HMAC_FINAL takes the digest of the two parts that `Hmac` is made of. -/
theorem hmacSessionComputesHmac : Obligations.HmacSessionComputesHmac := by
  intro s key chunks hfree hkey hle
  obtain ⟨t, hinit, hlive, hokey, hhacc⟩ := exec_hmacInit_withDin (hstate_free_iff.1 hfree) hkey
  obtain ⟨u, hfeed, hlive', hokey', hhacc'⟩ := feedHmac_context hlive hle
  refine ⟨t, u, _, hinit, hfeed, exec_hmacFinal hlive', ?_, ?_, rfl, rfl⟩
  · rw [succeed_dout, dropHmacContext_dout, setOut_toList_dout_take _ _ (by decide), hokey', hhacc',
      hokey, hhacc]
    rfl
  · rw [succeed_olen, dropHmacContext_olen, setOut_olen, Vector.length_toList]

/-- Settles O51: the two pads are the block-sized key with each byte changed, as the statement writes it. -/
theorem hmacIsTheStandardConstruction : Obligations.HmacIsTheStandardConstruction := by
  refine fun hash key message => ⟨hmacK0_of_long, fun hfits => ?_, ?_⟩
  · rw [hmacK0_of_fits hfits, toList_ofBytes_of_le key hfits]
  · rw [hmac, hmacDigest, hmacOuterKey_eq_map, hmacInnerKey_eq_map, Vector.toList_map,
      Vector.toList_map]

/-- Settles O52: the context check stands before the size check, and past both the pads are those of the
key in `DIN`. -/
theorem hmacInitCreatesTheContext : Obligations.HmacInitCreatesTheContext := by
  refine ⟨fun len => decode_encode (.hmacInit len), ?_⟩
  intro len s k0 live
  refine ⟨fun hlive => ?_, fun hfree hl => ?_, fun hfree hl => ?_⟩
  · exact exec_of_precheckError (precheckError_of_context
      (if_neg fun hfree => hstate_free_iff.1 hfree hlive))
  · exact exec_of_precheckError (precheckError_of_size (contextError_hmacInit_free hfree) rfl
      (decide_eq_false hl.not_ge))
  · rw [exec_hmacInit hfree hl, hmacInnerKey_eq_map, hmacOuterKey_eq_map]
    rfl

/-- Settles O53: the state of the slot alone decides between the two context errors, the size check stands
after it, and past both the chunk is absorbed. -/
theorem hmacUpdateAbsorbsTheChunk : Obligations.HmacUpdateAbsorbsTheChunk := by
  refine ⟨fun len => decode_encode (.hmacUpdate len), ?_⟩
  intro len s live
  have hslot := contextError_hmacUpdate len s.cstate s.hstate
  refine ⟨fun hh => ?_, fun hh => ?_, fun hlive hl => ?_, fun hlive hl => ?_⟩
  · exact exec_of_precheckError (precheckError_of_context (hslot.trans (congrArg hmacLiveError hh)))
  · exact exec_of_precheckError (precheckError_of_context (hslot.trans (congrArg hmacLiveError hh)))
  · exact exec_of_precheckError (precheckError_of_size (contextError_hmacUpdate_live hlive) rfl
      (decide_eq_false hl.not_ge))
  · exact exec_hmacUpdate hlive hl

/-- Settles O54: the checks as for O53, and past them the digest of what the context has absorbed, its 32
bytes recorded in `OLEN`. -/
theorem hmacFinalProducesTheDigest : Obligations.HmacFinalProducesTheDigest := by
  refine ⟨fun len => decode_encode (.hmacFinal len), ?_⟩
  intro len s live
  have hslot := contextError_hmacFinal len s.cstate s.hstate
  refine ⟨fun hh => ?_, fun hh => ?_, fun hlive hl => ?_, fun hlive hl => ?_⟩
  · exact exec_of_precheckError (precheckError_of_context (hslot.trans (congrArg hmacLiveError hh)))
  · exact exec_of_precheckError (precheckError_of_context (hslot.trans (congrArg hmacLiveError hh)))
  · exact exec_of_precheckError (precheckError_of_size (contextError_hmacFinal_live hlive) rfl
      (beq_false_of_ne hl))
  · obtain rfl : len = 0#8 := BitVec.eq_of_toNat_eq hl
    rw [exec_hmacFinal hlive, setOut, Vector.length_toList]
    rfl

/-- Settles O55: the command has no context check, so its size alone decides, in every state. -/
theorem hmacWipeAbandonsTheContext : Obligations.HmacWipeAbandonsTheContext := by
  refine ⟨fun len => decode_encode (.hmacWipe len), fun len s => ⟨fun hl => ?_, fun hl => ?_⟩⟩
  · exact exec_of_precheckError (precheckError_of_size rfl rfl (beq_false_of_ne hl))
  · obtain ⟨t, h, ht⟩ := exec_of_precheckError_eq_none
      (precheckError_eq_none rfl rfl (beq_of_eq hl) : precheckError (.hmacWipe len) s = none)
    cases ht with
    | hmacWipe => exact h

end Sys2Proof.Proofs

/-! SUPPORT. IO_WIPE and SOFT_RESET past their only check, that of the size. -/

namespace Sys2Proof.Machine

/-- IO_WIPE clears both buffers, the length of the result and `ERR`, and leaves the rest (rule R240). -/
theorem exec_ioWipe (s : State) :
    exec (.ioWipe 0#8) s =
      .next { s with din := zeros 128, dout := zeros 64, olen := 0#8, err := .noError } := by
  obtain ⟨t, h, ht⟩ := exec_of_precheckError_eq_none
    (precheckError_eq_none rfl rfl rfl : precheckError (.ioWipe 0#8) s = none)
  cases ht with
  | ioWipe =>
    rw [h, setOut, ofBytes_nil]
    rfl

/-- `ERR` is already clear in the reset state, so a successful end changes nothing more (rules R94, R42). -/
theorem succeed_resetCore (s : State) : succeed (resetCore s) = resetCore s := rfl

/-- SOFT_RESET gives every element of the core its reset value (rule R241). -/
theorem exec_softReset (s : State) : exec (.softReset 0#8) s = .next (resetCore s) := by
  obtain ⟨t, h, ht⟩ := exec_of_precheckError_eq_none
    (precheckError_eq_none rfl rfl rfl : precheckError (.softReset 0#8) s = none)
  cases ht with
  | softReset => rw [h, succeed_resetCore]

end Sys2Proof.Machine

/-! The statements of 44_system.md, settled. -/

namespace Sys2Proof.Proofs

open Sys2Proof Sys2Proof.Machine

/-- Settles O58: the command has no context check, so its size alone decides, in every state. -/
theorem ioWipeZeroesBothBuffers : Obligations.IoWipeZeroesBothBuffers := by
  refine ⟨fun len => decode_encode (.ioWipe len), fun len s => ⟨fun hl => ?_, fun hl => ?_⟩⟩
  · exact exec_of_precheckError (precheckError_of_size rfl rfl (beq_false_of_ne hl))
  · obtain rfl : len = 0#8 := BitVec.eq_of_toNat_eq hl
    exact exec_ioWipe s

/-- Settles O59, as O58 with the whole core reset; a failed size check resets nothing. -/
theorem softResetReturnsToReset : Obligations.SoftResetReturnsToReset := by
  refine ⟨fun len => decode_encode (.softReset len), fun len s => ⟨fun hl => ?_, fun hl => ?_⟩⟩
  · exact exec_of_precheckError (precheckError_of_size rfl rfl (beq_false_of_ne hl))
  · obtain rfl : len = 0#8 := BitVec.eq_of_toNat_eq hl
    exact exec_softReset s

end Sys2Proof.Proofs

/-! The statement of 60_exceptions.md, settled. -/

namespace Sys2Proof.Proofs

open Sys2Proof Sys2Proof.Machine

/-- Settles O19: the decoder's refusal decides an illegal word, the first failing pre-check decides a
command, and `raise` changes only `ERR` and `ESTICKY`. IntegrityError is the error of no pre-check, so a
command that ends in it did not stop at one. -/
theorem precheckErrorsChangeOnlyStatus : Obligations.PrecheckErrorsChangeOnlyStatus := by
  refine ⟨fun w c s hdec => ?illegalWord, fun i s e he => exec_of_precheckError he,
    fun i s t h herr => ?integrityError⟩
  case illegalWord =>
    obtain ⟨_, -, hw⟩ | ⟨i, hi, -⟩ := execWord_cases w s
    · exact hw
    · cases hdec.symm.trans hi
  case integrityError =>
    cases exec_next h with
    | completed hnone _ => exact hnone
    | raised he =>
      obtain rfl := ErrCode.error.inj herr
      exact absurd he (precheckError_ne_integrityError i s)

end Sys2Proof.Proofs

/-! SUPPORT. The step without a move, the access the bus refuses, and one word write to `DIN` after another. -/

namespace Sys2Proof.Machine

theorem step_idle {s : State} (h : s.pending = []) : step s = .next s := by
  simp only [step, h]

/-! ### Refused accesses (rules R62, R63) -/

/-- The bus refuses an access of another width, a misaligned one, and one in either unmapped range. -/
theorem not_admitted_of_refused {off size : Nat}
    (h : size ≠ 4 ∨ off % 4 ≠ 0 ∨ (0x00C ≤ off ∧ off < 0x080) ∨ 0x140 ≤ off) :
    ¬ admitted off size = true := by
  rw [admitted_iff]
  rintro ⟨hsize, halign, hmap⟩
  obtain hwidth | hmis | hunmapped := h
  · exact hwidth hsize
  · exact hmis halign
  · omega

theorem step_read_refused {s : State} {off size : Nat} {rest : List HostMove}
    (hp : s.pending = .read off size :: rest) (hadm : ¬ admitted off size = true) :
    step s = .fault .busError := by
  rw [step_read hp, if_neg hadm]

theorem step_write_refused {s : State} {off size : Nat} {v : Word} {rest : List HostMove}
    (hp : s.pending = .write off size v :: rest) (hadm : ¬ admitted off size = true) :
    step s = .fault .busError := by
  rw [step_cons hp, hostMove, if_neg hadm]

/-! ### Word writes to `DIN` (rules R64, R68) -/

/-- `DIN` after a word write: the bytes of the word in its range, and the old bytes outside it. -/
theorem dinWrite_bytes32le_getElem (i : Nat) (v : Word) (s : State) (j : Nat) (hj : j < 128) :
    (dinWrite i v s).din[j] =
      if h : i ≤ j ∧ j < i + 4 then (bytes32le v)[j - i]'(by omega) else s.din[j] := by
  rw [← dinWrite_le32_getElem, le32_bytes32le]

/-- A word write changes `DIN` alone (rule R64). -/
theorem dinWrite_frame (i : Nat) (v : Word) (s : State) :
    dinWrite i v s = { s with din := (dinWrite i v s).din } := rfl

/-- Two word writes change `DIN` alone. -/
theorem dinWrite_dinWrite_frame (i j : Nat) (v w : Word) (s : State) :
    dinWrite i v (dinWrite j w s) = { s with din := (dinWrite i v (dinWrite j w s)).din } := by
  rw [dinWrite_frame i v, dinWrite_frame j w]

/-- States that differ from one state in `DIN` alone are equal when they agree there. -/
theorem eq_of_din_eq {s t u : State} (ht : t = { s with din := t.din })
    (hu : u = { s with din := u.din }) (hdin : t.din = u.din) : t = u :=
  calc t
    _ = { s with din := t.din } := ht
    _ = { s with din := u.din } := by rw [hdin]
    _ = u := hu.symm

/-- Word writes to ranges that share no byte commute. -/
theorem dinWrite_comm {i j : Nat} (v w : Word) (s : State) (hapart : i + 4 ≤ j ∨ j + 4 ≤ i) :
    dinWrite i v (dinWrite j w s) = dinWrite j w (dinWrite i v s) := by
  refine eq_of_din_eq (dinWrite_dinWrite_frame i j v w s) (dinWrite_dinWrite_frame j i w v s) ?_
  ext b hb : 1
  simp only [dinWrite_bytes32le_getElem]
  by_cases hi : i ≤ b ∧ b < i + 4
  · have hj : ¬ (j ≤ b ∧ b < j + 4) := by omega
    simp only [dif_pos hi, dif_neg hj]
  · simp only [dif_neg hi]

/-- The last word written to a range is the one it holds. -/
theorem dinWrite_dinWrite_same (i : Nat) (v w : Word) (s : State) :
    dinWrite i v (dinWrite i w s) = dinWrite i v s := by
  refine eq_of_din_eq (dinWrite_dinWrite_frame i i v w s) (dinWrite_frame i v s) ?_
  ext b hb : 1
  simp only [dinWrite_bytes32le_getElem]
  by_cases hi : i ≤ b ∧ b < i + 4
  · simp only [dif_pos hi]
  · simp only [dif_neg hi]

end Sys2Proof.Machine

/-! The other statements of the host port, settled. -/

namespace Sys2Proof.Proofs

open Sys2Proof Sys2Proof.Machine

/-- Settles O12: aligned words at different offsets share no byte, and a write at the offset of the one
before it overwrites all that one wrote. -/
theorem dinWritesCommuteAndAreIdempotent : Obligations.DinWritesCommuteAndAreIdempotent :=
  fun s i j v w hi hj =>
    ⟨fun hne => dinWrite_comm v w s (by omega), dinWrite_dinWrite_same i v v s⟩

/-- Settles O8: with no move pending, a step takes its idle branch. -/
theorem idleStepKeepsState : Obligations.IdleStepKeepsState :=
  fun _ hidle => step_idle hidle

/-- Settles O9: the bus admits no such access, and a step on one that is not admitted is the fault. -/
theorem refusedAccessFaults : Obligations.RefusedAccessFaults := by
  intro s off size v rest hrefused
  have hadm := not_admitted_of_refused hrefused
  exact ⟨fun hp => step_read_refused hp hadm, fun hp => step_write_refused hp hadm⟩

end Sys2Proof.Proofs
